-- ==== Sys2Proof/Word.lean ====
section
/-! DEFINITION. The block's words: channel values, symbols, pixels and command words (00_scope.md R13, 30_encoding.md R90). -/

namespace Sys2Proof

/-- One colour channel value, 8 bits unsigned (R13, R25). -/
abbrev Byte := BitVec 8

/-- One bus symbol, 8 bits: one byte of the payload (R13, R85). -/
abbrev Symbol := BitVec 8

/-- One command word, exactly 48 bits (R90). -/
abbrev CmdWord := BitVec 48

/-- The zero symbol of the reset preamble: a constant, not a parameter (R13, R81). -/
def ZSYM : Symbol := 0x00#8

/-- The three colour channels of a pixel (R13, R23). -/
inductive Channel where
  | green
  | red
  | blue
deriving DecidableEq, Repr, Inhabited

/-- A pixel: three channel values named `g`, `r`, `b` (R13, R23). -/
structure Pixel where
  g : Byte
  r : Byte
  b : Byte
deriving DecidableEq, Repr, Inhabited

/-- The channel of a pixel that a channel name selects. -/
def Pixel.channel (p : Pixel) : Channel → Byte
  | .green => p.g
  | .red => p.r
  | .blue => p.b

/-- The pixel (0, 0, 0), which `CLEAR` writes (R133). -/
def Pixel.black : Pixel := ⟨0#8, 0#8, 0#8⟩

end Sys2Proof
end

