-- ==== Sys2Proof/Syntax.lean ====
section
/-! DEFINITION. The commands: one constructor for each row of spec/opcode_table.json (30_encoding.md R93, R94). -/

namespace Sys2Proof

/-- A command. A field that an operation does not use is ignored (R95) and is no part of it. The table covers the reserved opcodes
with seven rows; each has its constructor, which carries the opcode (DEDUCED, log 17). -/
inductive Instr where
  /-- `SETPIXEL index, g, r, b` (R131), opcode 0x01. -/
  | setpixel (index : BitVec 16) (color : Pixel)
  /-- `SETALL g, r, b` (R132), opcode 0x02. -/
  | setall (color : Pixel)
  /-- `CLEAR` (R133), opcode 0x03. -/
  | clear
  /-- `RESERVED` (R134), opcode 0x00. -/
  | reserved00
  /-- `RESERVED` (R134), opcodes 0x04 to 0x07. -/
  | reserved04 (op : BitVec 8)
  /-- `RESERVED` (R134), opcodes 0x08 to 0x0F. -/
  | reserved08 (op : BitVec 8)
  /-- `RESERVED` (R134), opcodes 0x10 to 0x1F. -/
  | reserved10 (op : BitVec 8)
  /-- `RESERVED` (R134), opcodes 0x20 to 0x3F. -/
  | reserved20 (op : BitVec 8)
  /-- `RESERVED` (R134), opcodes 0x40 to 0x7F. -/
  | reserved40 (op : BitVec 8)
  /-- `RESERVED` (R134), opcodes 0x80 to 0xFF. -/
  | reserved80 (op : BitVec 8)
deriving DecidableEq, Repr

end Sys2Proof
end

