-- ==== Sys2Proof/WellFormed.lean ====
section
/-! DEFINITION. Which commands have an encoding (30_encoding.md R93, R94): a reserved command's opcode lies in its row of the table. Every index and every colour is encodable (R91). -/

namespace Sys2Proof

/-- The opcode lies in the range of its row. -/
abbrev opIn (lo hi op : BitVec 8) : Prop := lo ≤ op ∧ op ≤ hi

/-- The command has an encoding: the row ranges of spec/opcode_table.json. -/
def Instr.WellFormed : Instr → Bool
  | .setpixel _ _ => true
  | .setall _ => true
  | .clear => true
  | .reserved00 => true
  | .reserved04 op => decide (opIn 0x04#8 0x07#8 op)
  | .reserved08 op => decide (opIn 0x08#8 0x0F#8 op)
  | .reserved10 op => decide (opIn 0x10#8 0x1F#8 op)
  | .reserved20 op => decide (opIn 0x20#8 0x3F#8 op)
  | .reserved40 op => decide (opIn 0x40#8 0x7F#8 op)
  | .reserved80 op => decide (opIn 0x80#8 0xFF#8 op)

end Sys2Proof
end

