-- ==== Sys2Proof/Decode.lean ====
section
/-! DEFINITION. The command word: its fields, the opcode table, the decoder and the encoder (30_encoding.md R90 to R96). -/

namespace Sys2Proof

/-- Field `op`, bits 47:40 (R90). -/
def opField (w : CmdWord) : BitVec 8 := w.extractLsb' 40 8

/-- Field `index`, bits 39:24 (R90). -/
def indexField (w : CmdWord) : BitVec 16 := w.extractLsb' 24 16

/-- Fields `g`, `r`, `b`, bits 23:16, 15:8 and 7:0 (R90, R91). -/
def colorField (w : CmdWord) : Pixel := ⟨w.extractLsb' 16 8, w.extractLsb' 8 8, w.extractLsb' 0 8⟩

/-- `word = op ++ index ++ g ++ r ++ b` (R90). -/
def packWord (op : BitVec 8) (index : BitVec 16) (c : Pixel) : CmdWord := op ++ index ++ c.g ++ c.r ++ c.b

/-- One row of the opcode table: its `match` and `mask` (R93). -/
structure Row where
  bits : CmdWord
  mask : CmdWord
deriving DecidableEq, Repr

/-- "A word `w` spells a row's operation exactly when `w & mask = match`" (R93). -/
def Row.covers (r : Row) (w : CmdWord) : Bool := w &&& r.mask == r.bits

/-- The row of spec/opcode_table.json that a command stands in. -/
def Instr.row : Instr → Row
  | .setpixel _ _ => ⟨0x010000000000#48, 0xFF0000000000#48⟩
  | .setall _ => ⟨0x020000000000#48, 0xFF0000000000#48⟩
  | .clear => ⟨0x030000000000#48, 0xFF0000000000#48⟩
  | .reserved00 => ⟨0x000000000000#48, 0xFF0000000000#48⟩
  | .reserved04 _ => ⟨0x040000000000#48, 0xFC0000000000#48⟩
  | .reserved08 _ => ⟨0x080000000000#48, 0xF80000000000#48⟩
  | .reserved10 _ => ⟨0x100000000000#48, 0xF00000000000#48⟩
  | .reserved20 _ => ⟨0x200000000000#48, 0xE00000000000#48⟩
  | .reserved40 _ => ⟨0x400000000000#48, 0xC00000000000#48⟩
  | .reserved80 _ => ⟨0x800000000000#48, 0x800000000000#48⟩

/-- For each row of the table, in the table's order, the command that a word of that row spells (R91, R93 to R95). -/
def candidates (w : CmdWord) : List Instr :=
  [ .setpixel (indexField w) (colorField w),
    .setall (colorField w),
    .clear,
    .reserved00,
    .reserved04 (opField w),
    .reserved08 (opField w),
    .reserved10 (opField w),
    .reserved20 (opField w),
    .reserved40 (opField w),
    .reserved80 (opField w) ]

/-- The opcode table, ten rows. -/
def opcodeTable : List Row := (candidates 0#48).map Instr.row

/-- The decoder: the command of the first row that covers the word. The rows cover every word exactly once (R93, R94), so the
default after `getD` is never taken. -/
def decode (w : CmdWord) : Instr :=
  ((candidates w).find? fun i => i.row.covers w).getD .reserved00

/-- The encoder. An unused field is written as zero (R95). -/
def encode : Instr → CmdWord
  | .setpixel index c => packWord 0x01#8 index c
  | .setall c => packWord 0x02#8 0#16 c
  | .clear => packWord 0x03#8 0#16 Pixel.black
  | .reserved00 => packWord 0x00#8 0#16 Pixel.black
  | .reserved04 op => packWord op 0#16 Pixel.black
  | .reserved08 op => packWord op 0#16 Pixel.black
  | .reserved10 op => packWord op 0#16 Pixel.black
  | .reserved20 op => packWord op 0#16 Pixel.black
  | .reserved40 op => packWord op 0#16 Pixel.black
  | .reserved80 op => packWord op 0#16 Pixel.black

/-- The bits of a command word that its operation uses (R93, column "fields used"; R95). -/
def Instr.usedBits : Instr → CmdWord
  | .setpixel _ _ => 0xFFFFFFFFFFFF#48
  | .setall _ => 0xFF0000FFFFFF#48
  | .clear => 0xFF0000000000#48
  | .reserved00 => 0xFF0000000000#48
  | .reserved04 _ => 0xFF0000000000#48
  | .reserved08 _ => 0xFF0000000000#48
  | .reserved10 _ => 0xFF0000000000#48
  | .reserved20 _ => 0xFF0000000000#48
  | .reserved40 _ => 0xFF0000000000#48
  | .reserved80 _ => 0xFF0000000000#48

/-- Why bits presented as a command are not a command word (R90: exactly 48 bits, presented whole; DESIGN CHOICE, log 16). -/
inductive DecodeError where
  /-- More than 48 bits. -/
  | widerThanOneWord (nbits : Nat)
  /-- A bit at or above the width given. -/
  | bitAboveWidth (nbits w : Nat)
deriving DecidableEq, Repr

/-- The command word of `nbits` presented bits; the bits above them are zero. -/
def presentWord (nbits w : Nat) : Except DecodeError CmdWord :=
  if 48 < nbits then .error (.widerThanOneWord nbits)
  else if 2 ^ nbits ≤ w then .error (.bitAboveWidth nbits w)
  else .ok (BitVec.ofNat 48 w)

/-- The command that `nbits` presented bits spell, or the name of what is wrong with them. -/
def decodeBits (nbits w : Nat) : Except DecodeError Instr :=
  match presentWord nbits w with
  | .ok word => .ok (decode word)
  | .error e => .error e

/-- The host's view of the decoder: bits numbered as spec/opcode_table.json numbers them. -/
def decodeTableWord (nbits w : Nat) : Option Instr :=
  match decodeBits nbits w with
  | .ok i => some i
  | .error _ => none

end Sys2Proof
end

