-- ==== Sys2Proof/Config.lean ====
section
/-! DEFINITION. The parameters of the block (00_scope.md R6 to R12, 10_state.md R21) and the free value that stands for the environment's choices (R17, R189). -/

namespace Sys2Proof

/-- The order in which the serial bus shifts the bits of a symbol onto the wire: outside the block, read by no rule (R12, R54). -/
inductive SymbolBitOrder where
  | msbFirst
  | lsbFirst
deriving DecidableEq, Repr, Inhabited

/-- The configuration: the stored fields of the block `CFG` (R21) and the spec's own parameters `NUM_PRODUCERS`, `BUS_CAN_FAIL`
and `SYMBOL_BIT_ORDER` (R12). `CFG.CHANNEL_ORDER` and `CFG.PAYLOAD_LEN` are hard-wired and derived: `Cfg.channelOrder`,
`Cfg.payloadLen`. -/
structure Cfg where
  /-- `LED_COUNT`, written N (R6). -/
  ledCount : Nat
  /-- `SYMBOLS_PER_BIT`, written S (R7). -/
  symbolsPerBit : Nat
  /-- The symbol of a clear protocol bit (R8). -/
  sym0 : Symbol
  /-- The symbol of a set protocol bit (R8). -/
  sym1 : Symbol
  /-- `PREAMBLE_LEN`, written P (R9). -/
  preambleLen : Nat
  /-- `REFRESH_INTERVAL`, written T, in ticks (R10). -/
  refreshInterval : Nat
  /-- `BUS_DATA_RATE`: no rule reads it (R11; log 15). -/
  busDataRate : Nat
  /-- `NUM_PRODUCERS`, the number of command ports (R12). -/
  numProducers : Nat
  /-- `BUS_CAN_FAIL`: can the bus report a write failure (R12). -/
  busCanFail : Bool
  /-- `SYMBOL_BIT_ORDER`: no rule reads it (R12, R54). -/
  symbolBitOrder : SymbolBitOrder
deriving DecidableEq, Repr, Inhabited

/-- The constraints on the open parameters (R6, R7, R8, R12): every claim's premise (R215). P, T and the unread parameters are free. -/
abbrev Cfg.wf (c : Cfg) : Prop :=
  1 ≤ c.ledCount ∧ c.ledCount ≤ 65536 ∧ 1 ≤ c.symbolsPerBit ∧ c.sym0 ≠ c.sym1 ∧ 1 ≤ c.numProducers

/-- One choice of the environment: which agent is scheduled, and what the environment supplies to its step (R17, R39).
DESIGN CHOICE (log 1), safe: every schedule, arbitration and bus behaviour is some list of choices. -/
inductive Choice where
  /-- A tick with `rst` high (R210), with the contents that `FB` (R211) and `PL` (R213) then hold. -/
  | rst (fbInit : List Pixel) (plInit : List Symbol)
  /-- Producer `p` presents a command word (R130, first step). -/
  | issue (p : Nat) (word : CmdWord)
  /-- The block executes the pending command of port `p` (R130, second step). -/
  | execute (p : Nat)
  /-- The sequencer is scheduled; `ready` is `sym_ready` and `fail` the draw of R157, both looked at in `WRITE` only. -/
  | sequencer (ready : Bool) (fail : Bool)
deriving DecidableEq, Repr, Inhabited

/-- The environment's choice number `n` after the settled choices of the state have run out: a FREE VALUE, nothing constrains it
(log 1). -/
opaque Config.freeChoice : Nat → Choice

end Sys2Proof
end

