-- ==== Sys2Proof/Machine/State.lean ====
section
/-! DEFINITION. The state of the block (10_state.md), the reasons a step can stop, and the state after reset (70_reset_and_hazards.md R210 to R213). -/

namespace Sys2Proof.Machine

/-- The three architectural states of the transmission task (R30). -/
inductive TaskState where
  | idle
  | composing
  | transmitting
deriving DecidableEq, Repr, Inhabited

/-- The position of the sequencer (R31), in the circular order of R150. -/
inductive Phase where
  | idle
  | zerofill
  | acquire
  | encode
  | release
  | select
  | write
  | deselect
deriving DecidableEq, Repr, Inhabited

/-- The owner of the single exclusive lock (R26): nobody, the sequencer, or producer port `p`. -/
inductive Lock where
  | free
  | tx
  | prod (p : Nat)
deriving DecidableEq, Repr, Inhabited

/-- A bus event (R16, R38). -/
inductive BusEvent where
  | select
  | sym (v : Symbol)
  | deselect
deriving DecidableEq, Repr, Inhabited

/-- An error event with its info (R180). No step raises `lockStarvation`: it is a property of an infinite run (R183). -/
inductive Signal where
  | indexOutOfRange (index : Nat)
  | busWriteFailure (rk : Nat)
  | lockStarvation (waiter : Lock)
deriving DecidableEq, Repr, Inhabited

/-- Payload contents: the offsets (R52) that do not read as the zero symbol, rising, each with its symbol. -/
abbrev Memory := List Host.Cell

/-- The state of the block: exactly what R20 lists, with the ghost records `trace` (R38) and `signals` (R184), and three fields of
the model's own, `port`, `sched` and `draws` (log 1, log 6). -/
structure State where
  /-- The configuration block and the spec's parameters: constant (R21, R22). -/
  cfg : Cfg
  /-- `FB[0..N-1]` (R23). -/
  fb : List Pixel
  /-- `LOCK` (R26). -/
  lock : Lock
  /-- `PL[0..L-1]` (R28). -/
  pl : Memory
  /-- `phase` (R31). -/
  phase : Phase
  /-- `px`, the pixel index of the `ENCODE` loop (R32). -/
  px : Nat
  /-- `wo`, the encoder's write offset (R33). -/
  wo : Nat
  /-- `rk`, the number of symbols pushed in the current frame (R34). -/
  rk : Nat
  /-- `timer`, the `Idle` dwell counter (R35, R193). -/
  timer : Nat
  /-- `cs_n`, device-select, active low (R36). -/
  csN : BitVec 1
  /-- `cmd[p]`, one command latch per producer port (R37). -/
  cmd : List (Option CmdWord)
  /-- Ghost `TRACE`: the bus events in the order emitted (R38). -/
  trace : List BusEvent
  /-- Ghost record of the error events signalled, in order; never cleared and read by no rule (R184; log 7). -/
  signals : List Signal
  /-- The model's own: the port on whose behalf the execute step runs (R130; log 6). -/
  port : Nat
  /-- The model's own: the environment's settled choices, oldest first (log 1). -/
  sched : List Choice
  /-- The model's own: how many free choices have been taken (log 1). -/
  draws : Nat
deriving DecidableEq, Repr, Inhabited

/-- What stops the machine. The block itself has no fault (R184, R185): both constructors name an access that the spec gives no
meaning, and no state that a run reaches has one (log 8). -/
inductive Fault where
  /-- An agent reads or writes `FB`, or releases the lock, without owning `LOCK` (R27, R56). Raised by `readPixel`, `writePixel` and
  `releaseLock`. Safe. -/
  | lockNotOwned
  /-- A pixel index that names no stored pixel (R51, R55). Raised by `readPixel` and `writePixel`. Safe. -/
  | pixelIndexOutside
deriving DecidableEq, Repr

/-- What has no meaning in the model. -/
inductive Refusal where
  /-- An instruction without a meaning: raised by no arm of `exec`. Safe. -/
  | notModelled (mnemonic : String)
  /-- A call of the encoder at an offset that leaves the payload: "a model must refuse the call" (R112, D31). Raised by `encByte`, so by
  the `ENCODE` phase in a state that no run reaches. Safe (log 9). -/
  | encoderOutsidePayload (offset : Nat)
deriving DecidableEq, Repr

/-- The state of a block with configuration `cfg` right after reset (R211 to R213): `fbInit` is the launch parameter `FB_INIT` (R211) and
`plInit` what the payload then holds (R213). -/
def State.resetWith (cfg : Cfg) (fbInit : List Pixel) (plInit : Memory) : State where
  cfg := cfg
  fb := fbInit
  lock := .free
  pl := plInit
  phase := .idle
  px := 0
  wo := 0
  rk := 0
  timer := 0
  csN := 1#1
  cmd := List.replicate cfg.numProducers none
  trace := []
  signals := []
  port := 0
  sched := []
  draws := 0

/-- The launch configuration of `State.reset`: the spec's own test configuration CFG-B with T = 2, one producer and a bus that cannot
fail (95_test_vectors.md sections 0 and 2.4 and program P1). DESIGN CHOICE (log 3), unsafe: no statement rests on it. -/
def State.resetCfg : Cfg where
  ledCount := 2
  symbolsPerBit := 1
  sym0 := 0xC0#8
  sym1 := 0xF8#8
  preambleLen := 4
  refreshInterval := 2
  busDataRate := 0
  numProducers := 1
  busCanFail := false
  symbolBitOrder := .msbFirst

/-- The launch parameter `FB_INIT` of `State.reset`: the value of vector Z1 and program P1 of 95_test_vectors.md. DESIGN CHOICE (log 4),
unsafe: no statement rests on it. -/
def State.resetPixels : List Pixel := [⟨0x11#8, 0x22#8, 0x33#8⟩, ⟨0x44#8, 0x55#8, 0x66#8⟩]

/-- The machine right after reset, for one launch (log 3, log 4, log 5). `State.resetWith` is the same for every launch. -/
def State.reset : State := State.resetWith State.resetCfg State.resetPixels []

end Sys2Proof.Machine
end

