-- ==== Sys2Proof/Machine/Operands.lean ====
section
/-! DEFINITION. Operand forms and address computations: the hard-wired and derived configuration fields (10_state.md R21), the payload's
address map (20_memory.md R59, R60), and the fitting of drawn values to their domain (00_scope.md R15). -/

namespace Sys2Proof

/-- `CFG.CHANNEL_ORDER`, hard-wired: green, then red, then blue (R11, R21, R53). -/
def Cfg.channelOrder (_ : Cfg) : List Channel := [.green, .red, .blue]

/-- Symbols of one channel value: eight groups of `S` (R60, R83). -/
def Cfg.channelLen (c : Cfg) : Nat := 8 * c.symbolsPerBit

/-- Symbols of one pixel: three channels (R60, R82). -/
def Cfg.pixelLen (c : Cfg) : Nat := 3 * c.channelLen

/-- `CFG.PAYLOAD_LEN`, written L: `P + 24*N*S` (R12, R60). -/
def Cfg.payloadLen (c : Cfg) : Nat := c.preambleLen + c.ledCount * c.pixelLen

/-- The address map of the pixel region (R59): pixel `i`, channel number `ch` in wire order, bit position `j` in transmission order,
symbol slot `k`. -/
def Cfg.payloadOffset (c : Cfg) (i ch j k : Nat) : Nat :=
  c.preambleLen + c.pixelLen * i + c.channelLen * ch + c.symbolsPerBit * j + k

namespace Machine

/-- Drawn frame buffer contents fitted to exactly `n` pixels: the identity on every list of `n` pixels (R211; log 11). -/
def fitPixels (n : Nat) (xs : List Pixel) : List Pixel := (xs ++ List.replicate n Pixel.black).take n

end Machine

end Sys2Proof
end

