-- ==== Sys2Proof/Machine/Ops.lean ====
section
/-! DEFINITION. The named operations over the two memories, the latches and the ghost records (00_scope.md R15), and reset
(70_reset_and_hazards.md R210). The block takes no exception and returns from none (60_exceptions.md R185, R190, R191): `signal` is all an
error event does. -/

namespace Sys2Proof.Machine

/-- What an operation answers. -/
abbrev Result := Host.Outcome State Fault Refusal

/-- Run `f` on the next state; a stop stays a stop. -/
def andThen (o : Result) (f : State → Result) : Result :=
  match o with
  | .next s => f s
  | .fault r => .fault r
  | .refused r => .refused r

/-! ### Payload memory (R28, R52) -/

/-- What an offset that is not listed reads as: the zero symbol, which zero-filling leaves (R13, R152). After reset it is the model's choice
(R213; DESIGN CHOICE, log 5). -/
def Memory.unlisted : Symbol := ZSYM

/-- The canonical form: offsets strictly rising, and no entry equal to what an unlisted offset reads as. -/
abbrev Memory.wf (m : Memory) : Prop :=
  m.Pairwise (fun x y => x.1 < y.1) ∧ ∀ x ∈ m, x.2 ≠ Memory.unlisted

/-- `PL[o]` (R15). -/
def Memory.read (m : Memory) (o : Nat) : Symbol :=
  match m with
  | [] => Memory.unlisted
  | (a, v) :: rest => if a = o then v else Memory.read rest o

/-- The entry for `v` at `o` before `rest`, left out when it reads so anyway. -/
def Memory.cons (o : Nat) (v : Symbol) (rest : Memory) : Memory :=
  if v = Memory.unlisted then rest else (o, v) :: rest

/-- `PL[o] <- v` (R15), in canonical form. -/
def Memory.write (m : Memory) (o : Nat) (v : Symbol) : Memory :=
  match m with
  | [] => Memory.cons o v []
  | (a, w) :: rest =>
    if o < a then Memory.cons o v ((a, w) :: rest)
    else if o = a then Memory.cons o v rest
    else (a, w) :: Memory.write rest o v

/-- `PL[o .. o + len(vs) - 1] <- vs`, one symbol after another (R112). -/
def Memory.writeAll (m : Memory) (o : Nat) (vs : List Symbol) : Memory :=
  match vs with
  | [] => m
  | v :: rest => Memory.writeAll (Memory.write m o v) (o + 1) rest

/-- The symbols at offsets `0 .. n - 1`, in ascending order. -/
def Memory.symbols (m : Memory) (n : Nat) : List Symbol := (List.range n).map (Memory.read m)

/-- The whole payload `PL[0..L-1]` of a state. -/
def payload (s : State) : List Symbol := Memory.symbols s.pl s.cfg.payloadLen

/-! ### Frame buffer (R24, R56): every access is made by the owner of `LOCK` -/

/-- `FB[i] <- v` by agent `a` (R15, R56). The unit is the whole pixel (R51). -/
def writePixel (a : Lock) (i : Nat) (v : Pixel) (s : State) : Result :=
  if s.lock ≠ a then .fault .lockNotOwned
  else if i < s.fb.length then .next { s with fb := s.fb.set i v }
  else .fault .pixelIndexOutside

/-- `FB[i] <- v` for every `i` in `0..N-1`, by agent `a` (R132, R56). -/
def writeEveryPixel (a : Lock) (v : Pixel) (s : State) : Result :=
  if s.lock ≠ a then .fault .lockNotOwned
  else .next { s with fb := List.replicate s.cfg.ledCount v }

/-- The pixel `FB[i]` as agent `a` reads it, or why it cannot (R15, R56). A read has no side effect (R58). -/
def readPixel (a : Lock) (i : Nat) (s : State) : Except Fault Pixel :=
  if s.lock ≠ a then .error .lockNotOwned
  else match s.fb[i]? with
    | some v => .ok v
    | none => .error .pixelIndexOutside

/-! ### Latches and ghost records -/

/-- `cmd[p]`: the pending command of port `p`, if it has one (R37). -/
def latch (p : Nat) (s : State) : Option CmdWord := (s.cmd[p]?).join

/-- `cmd[p] <- v` (R130). -/
def setLatch (p : Nat) (v : Option CmdWord) (s : State) : State := { s with cmd := s.cmd.set p v }

/-- `cmd[p] <- None` for the port whose command executes (R130 to R134). -/
def completeCommand (s : State) : State := setLatch s.port none s

/-- `emit e`: append a bus event to `TRACE` (R15, R38). -/
def emit (e : BusEvent) (s : State) : State := { s with trace := s.trace ++ [e] }

/-- `signal e`: name an error event. It "changes no state and transfers no control by itself" (R15, R180, R184): only the ghost record
grows (log 7). -/
def signal (e : Signal) (s : State) : State := { s with signals := s.signals ++ [e] }

/-! ### Reset -/

/-- A tick with `rst` high (R210): every piece of state at the values of R211 to R213, `CFG` as it is (R22). A pending command is dropped,
a frame in flight is cut, `TRACE` starts anew. The contents of `FB` and `PL` are the environment's draw (R211, R213; log 11). The ghost
record of signals stays (R184, log 7), and so does the environment's own part of the state. -/
def applyReset (fbInit : List Pixel) (plInit : List Symbol) (s : State) : State :=
  { s with
    fb := fitPixels s.cfg.ledCount fbInit
    lock := .free
    pl := Memory.writeAll [] 0 (plInit.take s.cfg.payloadLen)
    phase := .idle
    px := 0
    wo := 0
    rk := 0
    timer := 0
    csN := 1#1
    cmd := List.replicate s.cfg.numProducers none
    trace := [] }

end Sys2Proof.Machine
end

