-- ==== Sys2Proof/Machine/Flags.lean ====
section
/-! DEFINITION. The two flags of the block, `LOCK` and `cs_n` (10_state.md R26, R27, R36, R41), the task state (R30) and the output signals
(R39; log 10). There are no condition codes (R41). -/

namespace Sys2Proof.Machine

/-- `LOCK <- a` (R15). -/
def setLock (a : Lock) (s : State) : State := { s with lock := a }

/-- `LOCK <- Free` by its owner: "Only the owner releases it" (R27 (c)). -/
def releaseLock (a : Lock) (s : State) : Result :=
  if s.lock = a then .next (setLock .free s) else .fault .lockNotOwned

/-- `cs_n <- v`: 0 selects, 1 deselects (R36). -/
def setSelect (v : BitVec 1) (s : State) : State := { s with csN := v }

/-- `st(phase)`: the architectural state of the task (R30, R31). -/
def taskState : Phase → TaskState
  | .idle => .idle
  | .zerofill => .composing
  | .acquire => .composing
  | .encode => .composing
  | .release => .composing
  | .select => .transmitting
  | .write => .transmitting
  | .deselect => .transmitting

/-- Output `cmd_ready[p]` at a tick where `rst` is low (R39, R130): the port exists and has no pending command. It is low during reset,
where no producer has a step (R210). -/
def cmdReady (p : Nat) (s : State) : Bool := s.cmd[p]? == some none

/-- Output `sym_valid` (R39): the sequencer presents a symbol in `WRITE` while some are left. -/
def symValid (s : State) : Bool := s.phase == .write && decide (s.rk < s.cfg.payloadLen)

/-- Output `sym_data` (R39): the symbol `PL[rk]`. -/
def symData (s : State) : Symbol := Memory.read s.pl s.rk

end Sys2Proof.Machine
end

