-- ==== Sys2Proof/Machine/Commands.lean ====
section
/-! DEFINITION. The producer commands (41_framebuffer_producer.md R130 to R137). Each meaning is the execute step of R130, one atomic step on
behalf of port `s.port`. A command that needs the lock while another agent owns it is not enabled: it stays pending and the state is as it was
(R130, R183; log 2). -/

namespace Sys2Proof.Machine

/-- The frame of a command that needs the lock (R131 to R133): enabled when `LOCK = Free`; take it as `Prod(p)`, run the body, release it,
empty the latch, all in one atomic step (R135; log 14). -/
def commandUnderLock (body : State → Result) (s : State) : Result :=
  if s.lock = .free then
    andThen (body (setLock (.prod s.port) s)) fun t =>
      andThen (releaseLock (.prod s.port) t) fun u => .next (completeCommand u)
  else .next s

/-- A command that does nothing but leave its latch (R134): enabled always, needs no lock, signals nothing. -/
def dropCommand (s : State) : Result := .next (completeCommand s)

/-- A rejected `SETPIXEL` (R131, R181, D7): the event is named, the command completes, nothing else changes. -/
def rejectIndex (index : Nat) (s : State) : Result := .next (completeCommand (signal (.indexOutOfRange index) s))

/-- `SETPIXEL index, g, r, b` (R131). The range check, on natural numbers (R91), comes before the lock is looked at. -/
def execSetpixel (index : BitVec 16) (color : Pixel) (s : State) : Result :=
  if s.cfg.ledCount ≤ index.toNat then rejectIndex index.toNat s
  else commandUnderLock (writePixel (.prod s.port) index.toNat color) s

/-- `SETALL g, r, b` (R132): one lock acquisition, every pixel. -/
def execSetall (color : Pixel) (s : State) : Result :=
  commandUnderLock (writeEveryPixel (.prod s.port) color) s

/-- `CLEAR` (R133): every pixel becomes (0, 0, 0). -/
def execClear (s : State) : Result :=
  commandUnderLock (writeEveryPixel (.prod s.port) Pixel.black) s

/-- `RESERVED`, opcode 0x00 (R134). -/
def execReserved00 (s : State) : Result := dropCommand s

/-- `RESERVED`, opcodes 0x04 to 0x07 (R134). -/
def execReserved04 (s : State) : Result := dropCommand s

/-- `RESERVED`, opcodes 0x08 to 0x0F (R134). -/
def execReserved08 (s : State) : Result := dropCommand s

/-- `RESERVED`, opcodes 0x10 to 0x1F (R134). -/
def execReserved10 (s : State) : Result := dropCommand s

/-- `RESERVED`, opcodes 0x20 to 0x3F (R134). -/
def execReserved20 (s : State) : Result := dropCommand s

/-- `RESERVED`, opcodes 0x40 to 0x7F (R134). -/
def execReserved40 (s : State) : Result := dropCommand s

/-- `RESERVED`, opcodes 0x80 to 0xFF (R134). -/
def execReserved80 (s : State) : Result := dropCommand s

end Sys2Proof.Machine
end

