-- ==== Sys2Proof/Machine/Dispatch.lean ====
section
/-! DEFINITION. One arm per constructor of Instr. -/

namespace Sys2Proof.Machine

def exec (i : Instr) (s : State) : Host.Outcome State Fault Refusal :=
  match i with
  | .setpixel index color => Sys2Proof.Machine.execSetpixel index color s
  | .setall color => Sys2Proof.Machine.execSetall color s
  | .clear => Sys2Proof.Machine.execClear s
  | .reserved00 => Sys2Proof.Machine.execReserved00 s
  | .reserved04 _ => Sys2Proof.Machine.execReserved04 s
  | .reserved08 _ => Sys2Proof.Machine.execReserved08 s
  | .reserved10 _ => Sys2Proof.Machine.execReserved10 s
  | .reserved20 _ => Sys2Proof.Machine.execReserved20 s
  | .reserved40 _ => Sys2Proof.Machine.execReserved40 s
  | .reserved80 _ => Sys2Proof.Machine.execReserved80 s

end Sys2Proof.Machine
end

