-- ==== Sys2Proof/Machine/Encoder.lean ====
section
/-! DEFINITION. The protocol encoder and its inverse (40_encoder.md R110 to R116, 30_encoding.md R80 to R87). -/

namespace Sys2Proof.Machine

/-- `ENCBIT(bit)`: a group of `S` equal symbols (R84, R111). -/
def encBit (c : Cfg) (bit : Bool) : List Symbol :=
  List.replicate c.symbolsPerBit (if bit then c.sym1 else c.sym0)

/-- `CH(v)`: the eight groups of a channel value, most significant bit first (R83, R114). -/
def channelSymbols (c : Cfg) (v : Byte) : List Symbol :=
  (List.range 8).flatMap fun j => encBit c (v.getLsbD (7 - j))

/-- `PIX(p)`: the channels of a pixel in wire order (R82, R114). -/
def pixelSymbols (c : Cfg) (p : Pixel) : List Symbol :=
  c.channelOrder.flatMap fun ch => channelSymbols c (p.channel ch)

/-- `COMPOSE(fb)`: the preamble, then every pixel in index order (R80, R114). -/
def compose (c : Cfg) (fb : List Pixel) : List Symbol :=
  List.replicate c.preambleLen ZSYM ++ fb.flatMap (pixelSymbols c)

/-- `ENCBYTE(v, o)`: write one channel value at offset `o` and answer the updated offset; outside its precondition the call is refused
(R112, D31; log 9). -/
def encByte (c : Cfg) (v : Byte) (o : Nat) (pl : Memory) : Except Refusal (Memory × Nat) :=
  if o + c.channelLen ≤ c.payloadLen then .ok (Memory.writeAll pl o (channelSymbols c v), o + c.channelLen)
  else .error (.encoderOutsidePayload o)

/-- Chain `ENCBYTE` over the channels of a pixel (R110, R113). -/
def encChannels (c : Cfg) (p : Pixel) (chs : List Channel) (o : Nat) (pl : Memory) : Except Refusal (Memory × Nat) :=
  match chs with
  | [] => .ok (pl, o)
  | ch :: rest =>
    match encByte c (p.channel ch) o pl with
    | .ok (pl', o') => encChannels c p rest o' pl'
    | .error r => .error r

/-- `ENCPIXEL(p, o)`: green, then red, then blue (R113). -/
def encPixel (c : Cfg) (p : Pixel) (o : Nat) (pl : Memory) : Except Refusal (Memory × Nat) :=
  encChannels c p c.channelOrder o pl

/-- `DECBYTE(ys)`: bit `7-j` is 1 if `ys[S*j] = SYM1`. Undefined (`none`) on a sequence that is not `8*S` symbols of the two values
(R115). -/
def decByte (c : Cfg) (ys : List Symbol) : Option Byte :=
  let bit (j : Nat) : BitVec 1 := BitVec.ofBool (ys.getD (c.symbolsPerBit * j) ZSYM == c.sym1)
  if ys.length = c.channelLen ∧ ∀ y ∈ ys, y = c.sym0 ∨ y = c.sym1 then
    some (bit 0 ++ bit 1 ++ bit 2 ++ bit 3 ++ bit 4 ++ bit 5 ++ bit 6 ++ bit 7)
  else none

/-- The pixel that `24*S` symbols spell (R87). -/
def decPixel (c : Cfg) (ys : List Symbol) : Option Pixel :=
  let k := c.channelLen
  match decByte c (ys.take k), decByte c ((ys.drop k).take k), decByte c (ys.drop (2 * k)) with
  | some g, some r, some b => some ⟨g, r, b⟩
  | _, _, _ => none

/-- The first `n` pixels that a pixel region spells (R87). -/
def decPixels (c : Cfg) (n : Nat) (ys : List Symbol) : Option (List Pixel) :=
  match n with
  | 0 => some []
  | n + 1 =>
    match decPixel c (ys.take c.pixelLen), decPixels c n (ys.drop c.pixelLen) with
    | some p, some ps => some (p :: ps)
    | _, _ => none

/-- Reading a complete frame back (R87): the pixels of `L` symbols whose first `P` are zero symbols. -/
def decFrame (c : Cfg) (ys : List Symbol) : Option (List Pixel) :=
  if ys.length = c.payloadLen ∧ ∀ y ∈ ys.take c.preambleLen, y = ZSYM then
    decPixels c c.ledCount (ys.drop c.preambleLen)
  else none

end Sys2Proof.Machine
end

