-- ==== Sys2Proof/Machine/Sequencer.lean ====
section
/-! DEFINITION. The eight phases of the transmission sequencer (42_transmission.md R150 to R160). Each definition is one step of the sequencer
in its phase. Where the spec says that the sequencer has no step (R153, R157), it waits: the state is as it was (log 2). -/

namespace Sys2Proof.Machine

/-- `phase <- X` (R15). -/
def setPhase (x : Phase) (s : State) : State := { s with phase := x }

/-- `IDLE` (R151): count the dwell down, then go on. A tick is one step of the sequencer (DESIGN CHOICE, log 18). -/
def phaseIdle (s : State) : Result :=
  if 0 < s.timer then .next { s with timer := s.timer - 1 } else .next (setPhase .zerofill s)

/-- `ZEROFILL` (R152): `PL[0..L-1] <- ZSYM`, `wo <- P`. -/
def phaseZerofill (s : State) : Result :=
  .next (setPhase .acquire
    { s with pl := Memory.writeAll s.pl 0 (List.replicate s.cfg.payloadLen ZSYM), wo := s.cfg.preambleLen })

/-- `ACQUIRE` (R153): enabled when `LOCK = Free`; otherwise the sequencer waits, without timeout. -/
def phaseAcquire (s : State) : Result :=
  if s.lock = .free then .next (setPhase .encode { setLock .tx s with px := 0 }) else .next s

/-- One pixel of the `ENCODE` loop (R154): read `FB[px]` as the lock's owner and append it to the payload. -/
def encodeOnePixel (s : State) : Result :=
  match readPixel .tx s.px s with
  | .error f => .fault f
  | .ok p =>
    match encPixel s.cfg p s.wo s.pl with
    | .error r => .refused r
    | .ok (pl, wo) => .next { s with pl := pl, wo := wo, px := s.px + 1 }

/-- `ENCODE` (R154, R136): one pixel a step, in index order. -/
def phaseEncode (s : State) : Result :=
  if s.px < s.cfg.ledCount then encodeOnePixel s else .next (setPhase .release s)

/-- `RELEASE` (R155). -/
def phaseRelease (s : State) : Result :=
  andThen (releaseLock .tx s) fun t => .next (setPhase .select t)

/-- `SELECT` (R156). -/
def phaseSelect (s : State) : Result :=
  .next (setPhase .write { emit .select (setSelect 0#1 s) with rk := 0 })

/-- The bus reports a failure (R158, R182): the event is named, the rest of the frame is dropped. -/
def failFrame (s : State) : Result := .next (setPhase .deselect (signal (.busWriteFailure s.rk) s))

/-- Push the symbol `PL[rk]` (R157). -/
def pushSymbol (s : State) : Result :=
  .next { emit (.sym (Memory.read s.pl s.rk)) s with rk := s.rk + 1 }

/-- `WRITE` (R157): enabled when the bus accepts a symbol or all are out; `fail` counts only when `BUS_CAN_FAIL`, at an enabled step
(DEDUCED, log 12). -/
def phaseWrite (ready fail : Bool) (s : State) : Result :=
  if ready = false ∧ s.rk ≠ s.cfg.payloadLen then .next s
  else if s.cfg.busCanFail && fail then failFrame s
  else if s.rk < s.cfg.payloadLen then pushSymbol s
  else .next (setPhase .deselect s)

/-- `DESELECT` (R159). -/
def phaseDeselect (s : State) : Result :=
  .next (setPhase .idle { emit .deselect (setSelect 1#1 s) with timer := s.cfg.refreshInterval })

/-- One step of the sequencer (R150, R160). -/
def sequencerStep (ready fail : Bool) (s : State) : Result :=
  match s.phase with
  | .idle => phaseIdle s
  | .zerofill => phaseZerofill s
  | .acquire => phaseAcquire s
  | .encode => phaseEncode s
  | .release => phaseRelease s
  | .select => phaseSelect s
  | .write => phaseWrite ready fail s
  | .deselect => phaseDeselect s

end Sys2Proof.Machine
end

