-- ==== Sys2Proof/Machine/Agents.lean ====
section
/-! DEFINITION. The steps of each agent and the environment's choice among them (00_scope.md R17, 41_framebuffer_producer.md R130,
60_exceptions.md R189, 70_reset_and_hazards.md R210). -/

namespace Sys2Proof.Machine

/-- Issue (R130): producer `p` presents any 48-bit word; it is accepted when the port is ready, and otherwise nothing happens. -/
def issueStep (p : Nat) (word : CmdWord) (s : State) : Result :=
  if cmdReady p s then .next (setLatch p (some word) s) else .next s

/-- The execute step runs for port `p`. -/
def selectPort (p : Nat) (s : State) : State := { s with port := p }

/-- Execute (R130): the pending command of port `p` is decoded and executed; with none pending, the port has no step. -/
def executeStep (p : Nat) (s : State) : Result :=
  match latch p s with
  | some word => exec (decode word) (selectPort p s)
  | none => .next s

/-- The environment's next choice: the oldest settled one, or a free value when none is settled (R17, R189; log 1). -/
def nextChoice (s : State) : Choice :=
  match s.sched with
  | [] => Config.freeChoice s.draws
  | c :: _ => c

/-- The state once its next choice is taken. -/
def consumeChoice (s : State) : State :=
  match s.sched with
  | [] => { s with draws := s.draws + 1 }
  | _ :: rest => { s with sched := rest }

/-- The step of the agent that was chosen. -/
def choiceStep (c : Choice) (s : State) : Result :=
  match c with
  | .rst fbInit plInit => .next (applyReset fbInit plInit s)
  | .issue p word => issueStep p word s
  | .execute p => executeStep p s
  | .sequencer ready fail => sequencerStep ready fail s

/-- The command word of a program, loaded where the next step executes it: in the latch of port 0, with that port chosen next (log 13). -/
def loadCommand (word : CmdWord) (s : State) : State :=
  { setLatch 0 (some word) s with sched := .execute 0 :: s.sched }

end Sys2Proof.Machine
end

