-- ==== Sys2Proof/Machine/Step.lean ====
section
/-! DEFINITION. One step of the block: the environment's next choice is taken and the chosen agent makes its step (00_scope.md R17). -/

namespace Sys2Proof.Machine

/-- One step. -/
def step (s : State) : Host.Outcome State Fault Refusal := choiceStep (nextChoice s) (consumeChoice s)

/-- The state with a command word placed so that the very next step executes it (log 13). The table's bits are the word's bits. -/
def State.withFetchWord (s : State) (nbits w : Nat) : State := loadCommand (BitVec.ofNat 48 (w % 2 ^ nbits)) s

end Sys2Proof.Machine
end

