-- ==== Sys2Proof/Safety.lean ====
section
/-! DEFINITION. The terms that claims use: the invariant of the block (42_transmission.md R161, 10_state.md R23 to R38), frames on the bus
(00_scope.md R16), a run with the history of its snapshots (20_memory.md R66, R71), and waiting, starvation and fairness (60_exceptions.md
R183, R189, 42_transmission.md R164). None of it is state of the block. -/

namespace Sys2Proof.Safety

open Sys2Proof.Machine

/-! ### Frames on the bus -/

/-- A frame that has begun and not ended: `Select`, then its symbols (R16). -/
def openFrame (ys : List Symbol) : List BusEvent := .select :: ys.map .sym

/-- A frame on the bus: `Select`, its symbols, `Deselect` (R16, R80). -/
def closedFrame (ys : List Symbol) : List BusEvent := openFrame ys ++ [.deselect]

/-- The sequencer owns the lock exactly in these phases (R161). -/
def inCriticalSection (x : Phase) : Bool := x == .encode || x == .release

/-- Device-select is asserted exactly in these phases (R36, R161). -/
def selected (x : Phase) : Bool := x == .write || x == .deselect

/-- The payload is complete and only read in these phases (R161). -/
def transmitting (x : Phase) : Bool := taskState x == .transmitting

/-! ### The invariant -/

/-- What holds in every state that a run reaches: the widths and bounds of 10_state.md, the invariants of R161, the `ENCODE` invariant of R154
and the form of `TRACE` (R38). -/
structure Inv (s : State) : Prop where
  /-- The configuration meets its constraints (R215 (1)). -/
  cfgWf : s.cfg.wf
  /-- `FB` holds exactly N pixels (R23). -/
  fbLength : s.fb.length = s.cfg.ledCount
  /-- One latch per port (R37). -/
  cmdLength : s.cmd.length = s.cfg.numProducers
  /-- The payload memory keeps its canonical form. -/
  plWf : Memory.wf s.pl
  /-- No payload symbol stands outside `0..L-1` (R28, R55). -/
  plInside : ∀ x ∈ s.pl, x.1 < s.cfg.payloadLen
  /-- `0 <= px <= N` (R32). -/
  pxBound : s.px ≤ s.cfg.ledCount
  /-- `0 <= wo <= L` (R33). -/
  woBound : s.wo ≤ s.cfg.payloadLen
  /-- `0 <= rk <= L` (R34). -/
  rkBound : s.rk ≤ s.cfg.payloadLen
  /-- `0 <= timer <= T` (R35). -/
  timerBound : s.timer ≤ s.cfg.refreshInterval
  /-- "`LOCK = Tx` exactly when `phase` is `ENCODE` or `RELEASE`" (R161). -/
  lockTx : s.lock = .tx ↔ inCriticalSection s.phase = true
  /-- Between steps no producer owns the lock: a command is one atomic step (R135). -/
  lockNotProd : ∀ p, s.lock ≠ .prod p
  /-- "`cs_n = 0` exactly when `phase` is `WRITE` or `DESELECT`" (R36, R161). -/
  csLow : s.csN = 0#1 ↔ selected s.phase = true
  /-- After `ZEROFILL` the payload is zero symbols and `wo = P` (R152). -/
  atAcquire : s.phase = .acquire →
    s.wo = s.cfg.preambleLen ∧ payload s = List.replicate s.cfg.payloadLen ZSYM
  /-- `wo = P + 24*S*px` and `PL[0..wo-1] = COMPOSE(FB)[0..wo-1]` (R33, R154); the rest is still zero. -/
  atEncode : s.phase = .encode →
    s.wo = s.cfg.preambleLen + s.cfg.pixelLen * s.px ∧
    payload s = (compose s.cfg s.fb).take s.wo ++ List.replicate (s.cfg.payloadLen - s.wo) ZSYM
  /-- At the end of the loop the payload is `COMPOSE(FB)` (R154). -/
  atRelease : s.phase = .release → payload s = compose s.cfg s.fb
  /-- "While `phase` is `SELECT`, `WRITE` or `DESELECT`, `PL = COMPOSE(snap)`" (R161). -/
  atTransmit : transmitting s.phase = true →
    ∃ snap : List Pixel, snap.length = s.cfg.ledCount ∧ payload s = compose s.cfg snap
  /-- `TRACE` is closed frames, then an open one with the `rk` symbols pushed so far exactly in `WRITE` and `DESELECT` (R38, R161). -/
  traceForm : ∃ frames : List (List Symbol),
    s.trace = frames.flatMap closedFrame ++
      if selected s.phase then openFrame ((payload s).take s.rk) else []

/-! ### Runs with the history of their snapshots and failures -/

/-- A state with the history of its run so far. None of the history is state of the block. -/
structure Hist where
  st : State
  /-- The value of `FB` at each step that took the lock for the sequencer (`t_a` of R66), oldest first: one for each cycle. -/
  snaps : List (List Pixel)
  /-- One entry for each cycle whose `WRITE` has ended, oldest first: the count of symbols out at the bus failure that the ending step signalled
  (R158), or `none` when all symbols are out. -/
  ends : List (Option Nat)

/-- The launch of a block: the state after reset, the environment's choices to come, no history. -/
def launch (cfg : Cfg) (fbInit : List Pixel) (plInit : Memory) (sched : List Choice) : Hist :=
  ⟨{ State.resetWith cfg fbInit plInit with sched := sched }, [], []⟩

/-- A launch meets the start-up requirements (R215 (1)): an admissible configuration, `N` pixels, a payload memory in its form. -/
abbrev LaunchOk (cfg : Cfg) (fbInit : List Pixel) (plInit : Memory) : Prop :=
  cfg.wf ∧ fbInit.length = cfg.ledCount ∧ Memory.wf plInit ∧ ∀ x ∈ plInit, x.1 < cfg.payloadLen

/-- The choice is a tick of reset, which starts a new run (R210). -/
def isReset (c : Choice) : Bool :=
  match c with
  | .rst _ _ => true
  | .issue _ _ => false
  | .execute _ => false
  | .sequencer _ _ => false

/-- The snapshots after a step from `s` to `t`: none after a reset, one more when the sequencer took the lock, else the same. -/
def snapsAfter (s t : State) (snaps : List (List Pixel)) : List (List Pixel) :=
  if isReset (nextChoice s) then []
  else if s.lock ≠ .tx ∧ t.lock = .tx then snaps ++ [s.fb]
  else snaps

/-- The count of symbols that an event names, if it is a bus failure. -/
def failedAt (e : Signal) : Option Nat :=
  match e with
  | .indexOutOfRange _ => none
  | .busWriteFailure k => some k
  | .lockStarvation _ => none

/-- The bus failure among the events that the step from `s` to `t` signalled. -/
def failureOf (s t : State) : Option Nat := (t.signals.drop s.signals.length).findSome? failedAt

/-- The ends after a step from `s` to `t`: none after a reset, one more when `WRITE` ended, else the same. -/
def endsAfter (s t : State) (ends : List (Option Nat)) : List (Option Nat) :=
  if isReset (nextChoice s) then []
  else if s.phase = .write ∧ t.phase = .deselect then ends ++ [failureOf s t]
  else ends

/-- One step with its history. -/
def Hist.next (h : Hist) : Option Hist :=
  match step h.st with
  | .next t => some ⟨t, snapsAfter h.st t h.snaps, endsAfter h.st t h.ends⟩
  | .fault _ => none
  | .refused _ => none

/-- `n` steps with their history. -/
def Hist.after (h : Hist) : Nat → Option Hist
  | 0 => some h
  | n + 1 => h.next.bind fun h' => h'.after n

/-- The symbols of a frame with snapshot `snap`: all of `COMPOSE(snap)`, or its first `k` when its own bus failure cut it at `k` (R71, R158). -/
def frameOf (c : Cfg) (snap : List Pixel) (cut : Option Nat) : List Symbol :=
  match cut with
  | none => compose c snap
  | some k => (compose c snap).take k

/-- The frames whose `WRITE` has ended: each cycle's snapshot with its own end. -/
def Hist.frames (h : Hist) : List (List Symbol) := List.zipWith (frameOf h.st.cfg) h.snaps h.ends

/-- A cycle is under way whose snapshot is taken and whose `WRITE` has not ended. -/
def underWay (x : Phase) : Bool := inCriticalSection x || x == .select || x == .write

/-- What ties `TRACE` to the history (R66, R71): it holds at launch and every step keeps it. -/
structure HistInv (h : Hist) : Prop where
  /-- The state meets the invariant. -/
  inv : Inv h.st
  /-- One end for each snapshot, but for the snapshot of the cycle under way. -/
  aligned : h.snaps.length = h.ends.length + if underWay h.st.phase then 1 else 0
  /-- The newest snapshot is `FB` while the lock is held, and its `COMPOSE` is the payload until `WRITE` has ended. -/
  current : underWay h.st.phase = true → ∃ snap, h.snaps.getLast? = some snap ∧
    (inCriticalSection h.st.phase = true → snap = h.st.fb) ∧
    (transmitting h.st.phase = true → payload h.st = compose h.st.cfg snap)
  /-- `TRACE` is the frames that have ended, and in `WRITE` the open one after them. -/
  trace : h.st.phase ≠ .deselect → h.st.trace = h.frames.flatMap closedFrame ++
    if h.st.phase = .write then openFrame ((payload h.st).take h.st.rk) else []
  /-- In `DESELECT` the newest of them only lacks its `Deselect`. -/
  traceAtDeselect : h.st.phase = .deselect → h.st.trace ++ [.deselect] = h.frames.flatMap closedFrame
  /-- A frame is cut only by a failure that `BUS_CAN_FAIL` allows and that was signalled with its count. -/
  cuts : ∀ k, some k ∈ h.ends → h.st.cfg.busCanFail = true ∧ Signal.busWriteFailure k ∈ h.st.signals

/-- The frame theorem (R71) of a state with its history: the closed frames in `TRACE` belong to the cycles in order; each is all of `COMPOSE` of its
cycle's snapshot, unless its own cycle's `WRITE` ended in a bus failure, and then it is cut at the count that failure names; what follows them is
nothing or a frame begun from the next cycle's snapshot. -/
def FramesAreSnapshots (h : Hist) : Prop :=
  ∃ (frames : List (List Symbol)) (tail : List BusEvent),
    h.st.trace = frames.flatMap closedFrame ++ tail ∧
    (∀ (j : Nat) (ys : List Symbol), frames[j]? = some ys →
      ∃ snap cut, h.snaps[j]? = some snap ∧ h.ends[j]? = some cut ∧ ys = frameOf h.st.cfg snap cut ∧
        ∀ k, cut = some k → h.st.cfg.busCanFail = true ∧ Signal.busWriteFailure k ∈ h.st.signals) ∧
    (tail = [] ∨
      ∃ (ys : List Symbol) (snap : List Pixel), h.snaps[frames.length]? = some snap ∧ ys <+: compose h.st.cfg snap ∧ tail = openFrame ys)

/-! ### Waiting, starvation and fairness -/

/-- The command is reserved (R94, R134). -/
def isReserved (i : Instr) : Bool :=
  match i with
  | .setpixel _ _ => false
  | .setall _ => false
  | .clear => false
  | .reserved00 => true
  | .reserved04 _ => true
  | .reserved08 _ => true
  | .reserved10 _ => true
  | .reserved20 _ => true
  | .reserved40 _ => true
  | .reserved80 _ => true

/-- The command needs the lock (R131 to R134). -/
def needsLock (c : Cfg) (i : Instr) : Bool :=
  match i with
  | .setpixel index _ => decide (index.toNat < c.ledCount)
  | .setall _ => true
  | .clear => true
  | .reserved00 => false
  | .reserved04 _ => false
  | .reserved08 _ => false
  | .reserved10 _ => false
  | .reserved20 _ => false
  | .reserved40 _ => false
  | .reserved80 _ => false

/-- The agent asks for the lock: the sequencer in `ACQUIRE`, a port whose pending command needs it. -/
def Wants (a : Lock) (s : State) : Prop :=
  match a with
  | .free => False
  | .tx => s.phase = .acquire
  | .prod p => ∃ w, latch p s = some w ∧ needsLock s.cfg (decode w) = true

/-- The choice schedules the agent. -/
def schedules (a : Lock) (c : Choice) : Prop :=
  match a with
  | .free => False
  | .tx => ∃ ready fail, c = .sequencer ready fail
  | .prod p => c = .execute p

/-- An infinite run under an environment: at step `n` it makes the choice `env n`. -/
def IsRun (env : Nat → Choice) (run : Nat → State) : Prop := ∀ n, choiceStep (env n) (run n) = .next (run (n + 1))

/-- `LockStarvation` (R183): from some point on the agent asks for the lock for ever. No step raises it: it is a property of a run. -/
def LockStarvation (run : Nat → State) (a : Lock) : Prop := ∃ k, ∀ n, k ≤ n → Wants a (run n)

/-- Arbitration is weakly fair to an agent (R164 (b), R189): again and again there is a step at which, if the agent asks for the lock, the lock
is free and the agent is scheduled. -/
def FairArbitration (env : Nat → Choice) (run : Nat → State) (a : Lock) : Prop :=
  ∀ k, ∃ n, k ≤ n ∧ (Wants a (run n) → (run n).lock = .free ∧ schedules a (env n))

/-- The sequencer is scheduled with the bus ready. -/
def isReadySequencer (c : Choice) : Bool :=
  match c with
  | .rst _ _ => false
  | .issue _ _ => false
  | .execute _ => false
  | .sequencer ready _ => ready

/-- How many steps of the sequencer, with the bus ready and the lock granted, take it out of its phase at the latest: the loops of R151, R154 and
R157 and their exits. -/
def exitBound (s : State) : Nat :=
  match s.phase with
  | .idle => s.timer + 1
  | .zerofill => 1
  | .acquire => 1
  | .encode => s.cfg.ledCount - s.px + 1
  | .release => 1
  | .select => 1
  | .write => s.cfg.payloadLen - s.rk + 1
  | .deselect => 1

/-- The steps of one cycle from `ACQUIRE` to the end of `DESELECT`: `N + 1` for `ENCODE`, `L + 1` for `WRITE`, one for each other phase. -/
def cycleSteps (c : Cfg) : Nat := c.ledCount + c.payloadLen + 6

end Sys2Proof.Safety
end

