-- ==== Sys2Proof/Certificates/Slice0/Obligations.lean ====
section
/-! DEFINITION. The statements for the provers. Each says what a rule of the spec says the block does, for every admissible configuration, every
frame buffer and every choice of the environment; none rests on the launch values of `State.reset`. -/

open Sys2Proof Sys2Proof.Machine Sys2Proof.Safety

/-! ### The command word (30_encoding.md part 2) -/

/-- The worked words of R99 and of vectors K1 to K11 (95_test_vectors.md section 2.2) decode to the commands they stand for; the worked commands
encode to those words, each field that the operation does not use written as zero (R95). -/
def Obligations.SpecWordsDecodeAndEncode : Prop :=
  decode 0x010000010204#48 = .setpixel 0x0000#16 ⟨0x01#8, 0x02#8, 0x04#8⟩ ∧
  decode 0x0100008001FF#48 = .setpixel 0x0000#16 ⟨0x80#8, 0x01#8, 0xFF#8⟩ ∧
  decode 0x010008FFFFFF#48 = .setpixel 0x0008#16 ⟨0xFF#8, 0xFF#8, 0xFF#8⟩ ∧
  decode 0x01FFFF000000#48 = .setpixel 0xFFFF#16 ⟨0x00#8, 0x00#8, 0x00#8⟩ ∧
  decode 0x0200000FF0AA#48 = .setall ⟨0x0F#8, 0xF0#8, 0xAA#8⟩ ∧
  decode 0x02ABCD0FF0AA#48 = .setall ⟨0x0F#8, 0xF0#8, 0xAA#8⟩ ∧
  decode 0x030000000000#48 = .clear ∧
  decode 0x03FFFFFFFFFF#48 = .clear ∧
  decode 0x000000000000#48 = .reserved00 ∧
  decode 0x04123456789A#48 = .reserved04 0x04#8 ∧
  decode 0xFF0000000000#48 = .reserved80 0xFF#8 ∧
  encode (.setpixel 0x0000#16 ⟨0x01#8, 0x02#8, 0x04#8⟩) = 0x010000010204#48 ∧
  encode (.setpixel 0x0000#16 ⟨0x80#8, 0x01#8, 0xFF#8⟩) = 0x0100008001FF#48 ∧
  encode (.setpixel 0x0008#16 ⟨0xFF#8, 0xFF#8, 0xFF#8⟩) = 0x010008FFFFFF#48 ∧
  encode (.setpixel 0xFFFF#16 ⟨0x00#8, 0x00#8, 0x00#8⟩) = 0x01FFFF000000#48 ∧
  encode (.setall ⟨0x0F#8, 0xF0#8, 0xAA#8⟩) = 0x0200000FF0AA#48 ∧
  encode .clear = 0x030000000000#48 ∧
  encode .reserved00 = 0x000000000000#48 ∧
  encode (.reserved04 0x04#8) = 0x040000000000#48 ∧
  encode (.reserved80 0xFF#8) = 0xFF0000000000#48

/-- Decoding the encoding of a well-formed command gives the command back, every operand at every value (R90 to R95). -/
def Obligations.DecodeInvertsEncode : Prop :=
  ∀ i : Instr, i.WellFormed = true → decode (encode i) = i

/-- Encoding what a word decodes to gives the word back, but for the bits its operation ignores, which are zero (R91, R95). -/
def Obligations.EncodeOfDecodeKeepsUsedBits : Prop :=
  ∀ w : CmdWord, encode (decode w) = w &&& (decode w).usedBits

/-- Every word decodes to a well-formed command, and a row of the opcode table covers it exactly when it is that command's row: no word lies in
two rows or in none (R93). -/
def Obligations.EveryWordSpellsExactlyOneRow : Prop :=
  ∀ w : CmdWord, (decode w).WellFormed = true ∧ (decode w).row ∈ opcodeTable ∧
    ∀ r ∈ opcodeTable, (r.covers w = true ↔ (decode w).row = r)

/-- The opcode map (R93): the operation an opcode selects and the fields it uses; a word spells a row's operation exactly when
`w & mask = match`. -/
def Obligations.OpcodeSelectsTheOperation : Prop :=
  ∀ w : CmdWord,
    (opField w = 0x01#8 → decode w = .setpixel (indexField w) (colorField w)) ∧
    (opField w = 0x02#8 → decode w = .setall (colorField w)) ∧
    (opField w = 0x03#8 → decode w = .clear) ∧
    (opField w ≠ 0x01#8 → opField w ≠ 0x02#8 → opField w ≠ 0x03#8 → isReserved (decode w) = true) ∧
    (w &&& 0xFF0000000000#48 = 0x010000000000#48 ↔ opField w = 0x01#8) ∧
    (w &&& 0xFF0000000000#48 = 0x020000000000#48 ↔ opField w = 0x02#8) ∧
    (w &&& 0xFF0000000000#48 = 0x030000000000#48 ↔ opField w = 0x03#8)

/-- An unused field is ignored (R95): words that agree in the fields their operation uses decode to the same command; the table's masks cover
`op` only; the encoder writes unused fields as zero. -/
def Obligations.UnusedFieldsAreIgnored : Prop :=
  (∀ w w' : CmdWord, opField w = opField w' → opField w ≠ 0x01#8 →
    (opField w = 0x02#8 → colorField w = colorField w') → decode w = decode w') ∧
  (∀ r ∈ opcodeTable, r.mask &&& 0x00FFFFFFFFFF#48 = 0#48) ∧
  (∀ i : Instr, encode i &&& ~~~i.usedBits = 0#48)

/-- The opcodes 0x00 and 0x04 to 0xFF are reserved, and a reserved word executes as a no-operation: whatever the lock, it changes nothing but the
latch it leaves and signals nothing (R94). -/
def Obligations.ReservedWordsExecuteAsNoOperations : Prop :=
  ∀ w : CmdWord,
    (isReserved (decode w) = true ↔ opField w = 0x00#8 ∨ 0x04 ≤ (opField w).toNat) ∧
    (isReserved (decode w) = true → ∀ s : State,
      exec (decode w) s = .next { s with cmd := s.cmd.set s.port none })

/-! ### The producer commands (41_framebuffer_producer.md) -/

/-- `SETPIXEL` (R131): in range with the lock free, it writes that pixel and completes; out of range, it is rejected whatever the lock is: the event
is named, in the ghost record (DESIGN CHOICE, log 7), and the command completes. In range with the lock taken it has no step in R131 and stays
pending; that `exec` then answers the same state is the model's choice (log 2). -/
def Obligations.SetpixelWritesOnePixelOrIsRejected : Prop :=
  ∀ (s : State) (index : BitVec 16) (color : Pixel), s.fb.length = s.cfg.ledCount →
    (index.toNat < s.cfg.ledCount → s.lock = .free →
      exec (.setpixel index color) s =
        .next { s with fb := s.fb.set index.toNat color, cmd := s.cmd.set s.port none }) ∧
    (index.toNat < s.cfg.ledCount → s.lock ≠ .free → exec (.setpixel index color) s = .next s) ∧
    (s.cfg.ledCount ≤ index.toNat →
      exec (.setpixel index color) s =
        .next { s with signals := s.signals ++ [.indexOutOfRange index.toNat], cmd := s.cmd.set s.port none })

/-- `SETALL` (R132): with the lock free, every pixel becomes the colour in one step, after which the lock is free again. With the lock taken it has no
step in R132 and stays pending; that `exec` then answers the same state is the model's choice (DESIGN CHOICE, log 2). -/
def Obligations.SetallWritesEveryPixel : Prop :=
  ∀ (s : State) (color : Pixel),
    (s.lock = .free →
      exec (.setall color) s =
        .next { s with fb := List.replicate s.cfg.ledCount color, cmd := s.cmd.set s.port none }) ∧
    (s.lock ≠ .free → exec (.setall color) s = .next s)

/-- `CLEAR` (R133): with the lock free, every pixel becomes (0, 0, 0). With the lock taken it has no step in R133 and stays pending; that `exec` then
answers the same state is the model's choice (DESIGN CHOICE, log 2). -/
def Obligations.ClearZeroesEveryPixel : Prop :=
  ∀ s : State,
    (s.lock = .free →
      exec .clear s =
        .next { s with fb := List.replicate s.cfg.ledCount ⟨0#8, 0#8, 0#8⟩, cmd := s.cmd.set s.port none }) ∧
    (s.lock ≠ .free → exec .clear s = .next s)

/-- `RESERVED` (R134): each of the seven rows of reserved commands is enabled whatever the lock is, and does `cmd[p] <- None` and nothing
else. -/
def Obligations.ReservedCommandsOnlyLeaveTheLatch : Prop :=
  ∀ (s : State) (op : BitVec 8),
    exec .reserved00 s = .next { s with cmd := s.cmd.set s.port none } ∧
    exec (.reserved04 op) s = .next { s with cmd := s.cmd.set s.port none } ∧
    exec (.reserved08 op) s = .next { s with cmd := s.cmd.set s.port none } ∧
    exec (.reserved10 op) s = .next { s with cmd := s.cmd.set s.port none } ∧
    exec (.reserved20 op) s = .next { s with cmd := s.cmd.set s.port none } ∧
    exec (.reserved40 op) s = .next { s with cmd := s.cmd.set s.port none } ∧
    exec (.reserved80 op) s = .next { s with cmd := s.cmd.set s.port none }

/-- `CLEAR` and `SETALL 0, 0, 0` "have the same effect on every state" (R98, the spec's own inference). -/
def Obligations.ClearEqualsSetallOfZero : Prop :=
  ∀ s : State, exec .clear s = exec (.setall ⟨0#8, 0#8, 0#8⟩) s

/-- The frame of every command: what it leaves unchanged (R24, R25, R131 to R134, R192). Only the latch of its own port, the pixel `SETPIXEL`
addresses, the pixels of `SETALL` and `CLEAR`, and the record of a rejected index may differ; every payload symbol reads as before. -/
def Obligations.CommandFrame : Prop :=
  ∀ (i : Instr) (s t : State), exec i s = .next t →
    t.cfg = s.cfg ∧ t.lock = s.lock ∧ t.phase = s.phase ∧ t.px = s.px ∧ t.wo = s.wo ∧ t.rk = s.rk ∧ t.timer = s.timer ∧
    t.csN = s.csN ∧ t.trace = s.trace ∧ t.port = s.port ∧ t.sched = s.sched ∧ t.draws = s.draws ∧
    (∀ a, Memory.read t.pl a = Memory.read s.pl a) ∧
    (∀ q, q ≠ s.port → t.cmd[q]? = s.cmd[q]?) ∧
    (∀ k : Nat, (∀ index color, i = .setpixel index color → k ≠ index.toNat) → (∀ color, i ≠ .setall color) → i ≠ .clear →
      t.fb[k]? = s.fb[k]?) ∧
    ((∀ index color, i = .setpixel index color → index.toNat < s.cfg.ledCount) → t.signals = s.signals)

/-- "nothing it can send is a contract violation" (R138): in a state with `N` pixels every command answers a next state. That a command that
waits for the lock answers the same state is the model's choice (DESIGN CHOICE, log 2). -/
def Obligations.NoCommandEverStops : Prop :=
  ∀ (i : Instr) (s : State), s.fb.length = s.cfg.ledCount → ∃ t, exec i s = .next t

/-- Executing a command twice in a row leaves the state the first left (R58, the spec's own inference), but for the ghost record of a rejected
index (log 7). -/
def Obligations.CommandsAreIdempotent : Prop :=
  ∀ (i : Instr) (s t : State), exec i s = .next t →
    ∃ u, exec i { t with cmd := s.cmd } = .next u ∧ { u with signals := t.signals } = t

/-- The round trips of R136 and of R133: after `SETPIXEL` the sequencer, once it owns the lock, reads exactly the written channels; after `CLEAR`
it reads (0, 0, 0) at every index. -/
def Obligations.SnapshotReadsWhatCommandsWrote : Prop :=
  (∀ (s t : State) (index : BitVec 16) (color : Pixel), s.fb.length = s.cfg.ledCount → index.toNat < s.cfg.ledCount →
    s.lock = .free → exec (.setpixel index color) s = .next t → readPixel .tx index.toNat (setLock .tx t) = .ok color) ∧
  (∀ (s t : State) (k : Nat), k < s.cfg.ledCount → s.lock = .free → exec .clear s = .next t →
    readPixel .tx k (setLock .tx t) = .ok ⟨0#8, 0#8, 0#8⟩)

/-- The table of R180, column "raised by": a step adds to the record of error events only the index of a rejected `SETPIXEL` or the count of symbols
out at a bus failure that `BUS_CAN_FAIL` allows; no step raises `LockStarvation`. The record is the ghost that R184 allows (DESIGN
CHOICE, log 7). -/
def Obligations.ErrorEventsHaveOnlyTheirCauses : Prop :=
  ∀ s t : State, step s = .next t →
    t.signals = s.signals ∨
    (∃ p w index color, nextChoice s = .execute p ∧ latch p s = some w ∧ decode w = .setpixel index color ∧
      s.cfg.ledCount ≤ index.toNat ∧ t.signals = s.signals ++ [.indexOutOfRange index.toNat]) ∨
    (∃ ready, nextChoice s = .sequencer ready true ∧ s.phase = .write ∧ s.cfg.busCanFail = true ∧
      t.signals = s.signals ++ [.busWriteFailure s.rk])

/-! ### Ports, schedule and the step (R130, R17) -/

/-- Issue (R130 (1)): a ready port accepts any word, which then pends and changes nothing else. A port that is busy or does not exist has no issue
step in R130; that the step then only uses the choice up is the model's choice (DESIGN CHOICE, log 2). The choice is settled or free. -/
def Obligations.IssueIsAcceptedExactlyByAReadyPort : Prop :=
  ∀ (s : State) (p : Nat) (w : CmdWord), nextChoice s = .issue p w →
    (p < s.cmd.length → latch p s = none → step s = .next { consumeChoice s with cmd := s.cmd.set p (some w) }) ∧
    (p < s.cmd.length → latch p s ≠ none → step s = .next (consumeChoice s)) ∧
    (s.cmd.length ≤ p → step s = .next (consumeChoice s))

/-- A step runs the decoded command (R130 (2)): when port `p` is chosen, by a settled or a free choice, and its pending word decodes to `i`, the step
is `exec i`, with the choice taken and the port selected (the field `port` is the model's own, DESIGN CHOICE, log 6). With nothing pending R130 gives
the port no step; that the step then only uses the choice up is the model's choice (DESIGN CHOICE, log 2). -/
def Obligations.StepExecutesTheDecodedCommand : Prop :=
  ∀ (s : State) (p : Nat), nextChoice s = .execute p →
    (∀ (w : CmdWord) (i : Instr), latch p s = some w → decode w = i →
      step s = exec i { consumeChoice s with port := p }) ∧
    (latch p s = none → step s = .next (consumeChoice s))

/-- When no choice is settled, the step makes the free choice, whatever it is (the model's own convention, log 1; R17, R189). -/
def Obligations.StepWithNoSettledChoiceTakesAFreeOne : Prop :=
  ∀ s : State, s.sched = [] →
    step s = choiceStep (Config.freeChoice s.draws) { s with draws := s.draws + 1 }

/-- A pending command pends until its own execute step or a reset: no other step replaces it or drops it (R63, R130). -/
def Obligations.PendingCommandStaysUntilExecuted : Prop :=
  ∀ (s t : State) (p : Nat) (w : CmdWord), step s = .next t → latch p s = some w →
    nextChoice s ≠ .execute p → isReset (nextChoice s) = false → latch p t = some w

/-- A pending command that is scheduled while its enabling condition holds completes: its port is ready again (R130, R131 to R134). -/
def Obligations.EnabledCommandCompletes : Prop :=
  ∀ (s : State) (p : Nat) (w : CmdWord), Inv s → nextChoice s = .execute p → latch p s = some w →
    (s.lock = .free ∨ needsLock s.cfg (decode w) = false) →
    ∃ t, step s = .next t ∧ latch p t = none ∧ cmdReady p t = true

/-! ### The sequencer, phase by phase (42_transmission.md) -/

/-- `IDLE` (R151): the timer counts down to 0, then the phase is `ZEROFILL`. -/
def Obligations.IdleCountsDownThenGoesOn : Prop :=
  ∀ (s : State) (ready fail : Bool), nextChoice s = .sequencer ready fail → s.phase = .idle →
    (0 < s.timer → step s = .next { consumeChoice s with timer := s.timer - 1 }) ∧
    (s.timer = 0 → step s = .next { consumeChoice s with phase := .zerofill })

/-- `ZEROFILL` (R152): every payload offset reads as the zero symbol, `wo = P`, the phase is `ACQUIRE`, nothing else changes. -/
def Obligations.ZerofillZeroesThePayload : Prop :=
  ∀ (s : State) (ready fail : Bool), nextChoice s = .sequencer ready fail → s.phase = .zerofill →
    Memory.wf s.pl →
    ∃ t, step s = .next t ∧ t.phase = .acquire ∧ t.wo = s.cfg.preambleLen ∧
      (∀ o, o < s.cfg.payloadLen → Memory.read t.pl o = 0x00#8) ∧
      (∀ o, s.cfg.payloadLen ≤ o → Memory.read t.pl o = Memory.read s.pl o) ∧
      { t with pl := s.pl, wo := s.wo, phase := s.phase } = consumeChoice s

/-- `ACQUIRE` (R153): with the lock free the sequencer owns it and the loop starts at pixel 0. Otherwise R153 gives it no step and it waits; that the
choice is then only used up is the model's choice (DESIGN CHOICE, log 2). -/
def Obligations.AcquireTakesAFreeLockOrWaits : Prop :=
  ∀ (s : State) (ready fail : Bool), nextChoice s = .sequencer ready fail → s.phase = .acquire →
    (s.lock = .free → step s = .next { consumeChoice s with lock := .tx, px := 0, phase := .encode }) ∧
    (s.lock ≠ .free → step s = .next (consumeChoice s))

/-- `ENCODE` (R154, R113): one pixel is written at `wo`, symbol by symbol as its bits say, `wo` advances by `24*S` and `px` by one, nothing else
changes; at `px = N` the loop ends. -/
def Obligations.EncodeWritesOnePixelAStep : Prop :=
  ∀ (s : State) (ready fail : Bool), nextChoice s = .sequencer ready fail → s.phase = .encode →
    (∀ p : Pixel, s.px < s.cfg.ledCount → s.fb[s.px]? = some p → s.lock = .tx → Memory.wf s.pl →
      s.wo + 24 * s.cfg.symbolsPerBit ≤ s.cfg.payloadLen →
      ∃ t, step s = .next t ∧ t.px = s.px + 1 ∧ t.wo = s.wo + 24 * s.cfg.symbolsPerBit ∧
        (∀ (ch j k : Nat) (v : Byte), [p.g, p.r, p.b][ch]? = some v → j < 8 → k < s.cfg.symbolsPerBit →
          Memory.read t.pl (s.wo + 8 * s.cfg.symbolsPerBit * ch + s.cfg.symbolsPerBit * j + k) =
            if v.getLsbD (7 - j) then s.cfg.sym1 else s.cfg.sym0) ∧
        (∀ a, a < s.wo ∨ s.wo + 24 * s.cfg.symbolsPerBit ≤ a → Memory.read t.pl a = Memory.read s.pl a) ∧
        { t with pl := s.pl, wo := s.wo, px := s.px } = consumeChoice s) ∧
    (s.cfg.ledCount ≤ s.px → step s = .next { consumeChoice s with phase := .release })

/-- `RELEASE` (R155): the owner frees the lock. -/
def Obligations.ReleaseFreesTheLock : Prop :=
  ∀ (s : State) (ready fail : Bool), nextChoice s = .sequencer ready fail → s.phase = .release →
    s.lock = .tx → step s = .next { consumeChoice s with lock := .free, phase := .select }

/-- `SELECT` (R156): device-select is asserted low, `Select` is emitted, the read index starts at 0. -/
def Obligations.SelectAssertsDeviceSelect : Prop :=
  ∀ (s : State) (ready fail : Bool), nextChoice s = .sequencer ready fail → s.phase = .select →
    step s = .next { consumeChoice s with csN := 0#1, trace := s.trace ++ [.select], rk := 0, phase := .write }

/-- `WRITE` without a failure (R157): one symbol goes out when the bus accepts it; after all `L` symbols the phase is `DESELECT`. A failure is
possible only when `BUS_CAN_FAIL`. While the bus does not accept the next symbol R157 gives no step: that the choice is then only used up (DESIGN
CHOICE, log 2), a failure draw with it (DEDUCED, log 12), is the model's choice. -/
def Obligations.WritePushesOneSymbolAStep : Prop :=
  ∀ (s : State) (ready fail : Bool), nextChoice s = .sequencer ready fail → s.phase = .write →
    ((s.cfg.busCanFail = false ∨ fail = false) → s.rk < s.cfg.payloadLen → ready = true →
      step s = .next { consumeChoice s with trace := s.trace ++ [.sym (Memory.read s.pl s.rk)], rk := s.rk + 1 }) ∧
    (s.rk < s.cfg.payloadLen → ready = false → step s = .next (consumeChoice s)) ∧
    ((s.cfg.busCanFail = false ∨ fail = false) → s.rk = s.cfg.payloadLen →
      step s = .next { consumeChoice s with phase := .deselect })

/-- A bus write failure (R158, R182): at any `WRITE` step that is enabled (DEDUCED, log 12) the rest of the frame is dropped; the event is named, in
the ghost record (DESIGN CHOICE, log 7), with the count of symbols out; `FB`, `LOCK`, `PL` and `rk` stay. -/
def Obligations.BusFailureCutsTheFrame : Prop :=
  ∀ (s : State) (ready : Bool), nextChoice s = .sequencer ready true → s.phase = .write →
    s.cfg.busCanFail = true → (ready = true ∨ s.rk = s.cfg.payloadLen) →
    step s = .next { consumeChoice s with signals := s.signals ++ [.busWriteFailure s.rk], phase := .deselect }

/-- `DESELECT` (R159): device-select is deasserted, `Deselect` is emitted, the timer is loaded with `T`. -/
def Obligations.DeselectEndsTheFrame : Prop :=
  ∀ (s : State) (ready fail : Bool), nextChoice s = .sequencer ready fail → s.phase = .deselect →
    step s = .next { consumeChoice s with csN := 1#1, trace := s.trace ++ [.deselect], timer := s.cfg.refreshInterval, phase := .idle }

/-- Every transition of `phase`, with its condition (R160): no step but the sequencer's and a reset moves it, and the sequencer moves it as the table
says. The table's "no step" while the sequencer waits is a step that leaves the phase (DESIGN CHOICE, log 2), and a failure drawn while the bus does
not accept the next symbol is such a wait (DEDUCED, log 12). -/
def Obligations.PhaseMovesOnlyByTheTable : Prop :=
  ∀ s t : State, step s = .next t →
    (isReset (nextChoice s) = true → t.phase = .idle) ∧
    (∀ p w, nextChoice s = .issue p w → t.phase = s.phase) ∧
    (∀ p, nextChoice s = .execute p → t.phase = s.phase) ∧
    (∀ ready fail, nextChoice s = .sequencer ready fail →
      (s.phase = .idle → t.phase = if 0 < s.timer then .idle else .zerofill) ∧
      (s.phase = .zerofill → t.phase = .acquire) ∧
      (s.phase = .acquire → t.phase = if s.lock = .free then .encode else .acquire) ∧
      (s.phase = .encode → t.phase = if s.px < s.cfg.ledCount then .encode else .release) ∧
      (s.phase = .release → t.phase = .select) ∧
      (s.phase = .select → t.phase = .write) ∧
      (s.phase = .write → ready = true →
        t.phase = if (s.cfg.busCanFail && fail) = true ∨ s.cfg.payloadLen ≤ s.rk then .deselect else .write) ∧
      (s.phase = .write → ready = false → t.phase = if s.rk = s.cfg.payloadLen then .deselect else .write) ∧
      (s.phase = .deselect → t.phase = .idle))

/-! ### Reset, the invariant, whole-machine rules -/

/-- Reset (R210 to R213): from any state, whatever it was doing, the block is put to the values of reset, with any contents of `FB` and `PL`; `CFG`
stays (R22). That the ghost record of error events stays is the model's reading of R184 (DESIGN CHOICE, log 7); a reset tick is one choice with the
contents it draws (DESIGN CHOICE, log 11), which leaves the model's own fields to the environment (DESIGN CHOICE, log 6). -/
def Obligations.ResetPutsEveryRegisterToItsResetValue : Prop :=
  ∀ (s : State) (fb : List Pixel) (pl : List Symbol), nextChoice s = .rst fb pl →
    fb.length = s.cfg.ledCount → pl.length = s.cfg.payloadLen →
    ∃ t, step s = .next t ∧ t.fb = fb ∧ payload t = pl ∧ t.lock = .free ∧ t.phase = .idle ∧ t.timer = 0 ∧ t.csN = 1#1 ∧
      t.px = 0 ∧ t.wo = 0 ∧ t.rk = 0 ∧ t.cmd = List.replicate s.cfg.numProducers none ∧ t.trace = [] ∧
      symValid t = false ∧ t.cfg = s.cfg ∧ t.signals = s.signals ∧
      t.port = s.port ∧ t.sched = (consumeChoice s).sched ∧ t.draws = (consumeChoice s).draws

/-- The values of reset (R212), for every launch: whatever the configuration, `FB_INIT` and the payload. -/
def Obligations.StateAfterResetHoldsTheResetValues : Prop :=
  ∀ (cfg : Cfg) (fbInit : List Pixel) (plInit : Memory),
    let s := State.resetWith cfg fbInit plInit
    s.lock = .free ∧ s.phase = .idle ∧ s.timer = 0 ∧ s.csN = 1#1 ∧ (∀ p, latch p s = none) ∧
      (∀ p < cfg.numProducers, cmdReady p s = true) ∧ symValid s = false ∧ s.trace = []

/-- The state after reset meets the invariant, and its empty history the invariant of histories, for every admissible launch and every environment
(R211 to R214). -/
def Obligations.LaunchMeetsTheInvariant : Prop :=
  ∀ (cfg : Cfg) (fbInit : List Pixel) (plInit : Memory) (sched : List Choice), LaunchOk cfg fbInit plInit →
    Inv (launch cfg fbInit plInit sched).st ∧ HistInv (launch cfg fbInit plInit sched)

/-- Every step keeps the invariant (R161, the spec's own inference, and the bounds and widths of 10_state.md), from every state that
meets it. -/
def Obligations.EveryStepKeepsTheInvariant : Prop :=
  ∀ s t : State, Inv s → step s = .next t → Inv t

/-- From every state that meets the invariant the block makes its step: nothing faults, nothing is refused (R163, R184, R185).
That an agent without an enabled step makes a step, one that only uses its choice up, is the model's choice (DESIGN CHOICE, log 2). -/
def Obligations.InvariantStatesNeverStop : Prop :=
  ∀ s : State, Inv s → ∃ t, step s = .next t

/-- "No operation writes `CFG`" (R22), reset included. -/
def Obligations.NoStepWritesTheConfiguration : Prop :=
  ∀ s t : State, step s = .next t → t.cfg = s.cfg

/-- `FB` is written only by the producer commands under a free lock, and by reset (R24, R192, R211). -/
def Obligations.FrameBufferChangesOnlyByCommands : Prop :=
  ∀ s t : State, step s = .next t → t.fb ≠ s.fb →
    isReset (nextChoice s) = true ∨
    ∃ p w, nextChoice s = .execute p ∧ latch p s = some w ∧ s.lock = .free ∧ needsLock s.cfg (decode w) = true

/-- While the sequencer owns the lock nothing changes `FB`: the snapshot is one value (R56, R66, R154). -/
def Obligations.FrameBufferIsStableDuringTheSnapshot : Prop :=
  ∀ s t : State, s.lock = .tx → isReset (nextChoice s) = false → step s = .next t → t.fb = s.fb

/-- While the frame is transmitted nothing changes `PL`: a command that executes then changes only later frames (R69, R161). -/
def Obligations.PayloadIsStableDuringTransmission : Prop :=
  ∀ s t : State, transmitting s.phase = true → isReset (nextChoice s) = false → step s = .next t → t.pl = s.pl

/-- `PL` is private to the sequencer (R29, R192): only its `ZEROFILL` and `ENCODE` steps, and reset, change it. -/
def Obligations.PayloadIsPrivateToTheSequencer : Prop :=
  ∀ s t : State, step s = .next t → t.pl ≠ s.pl →
    isReset (nextChoice s) = true ∨
    ((∃ ready fail, nextChoice s = .sequencer ready fail) ∧ (s.phase = .zerofill ∨ s.phase = .encode))

/-- What a step can emit (R38, R39, R86): at most one event; `Select` with `cs_n` going 1 to 0, `Deselect` with `cs_n` going 0 to 1, a symbol
only while `cs_n` is 0, and it is `sym_data` while `sym_valid`. -/
def Obligations.BusEventsFollowDeviceSelect : Prop :=
  ∀ s t : State, Inv s → isReset (nextChoice s) = false → step s = .next t →
    (t.trace = s.trace ∧ t.csN = s.csN) ∨
    (t.trace = s.trace ++ [.select] ∧ s.csN = 1#1 ∧ t.csN = 0#1) ∨
    (t.trace = s.trace ++ [.deselect] ∧ s.csN = 0#1 ∧ t.csN = 1#1) ∨
    (t.trace = s.trace ++ [.sym (symData s)] ∧ s.csN = 0#1 ∧ t.csN = 0#1 ∧ symValid s = true)

/-- The ghost records are read by no rule (R38, R184): with other records, the step is the same but for the records. -/
def Obligations.GhostRecordsAreReadByNoRule : Prop :=
  ∀ (s t : State) (tr : List BusEvent) (sg : List Signal), step s = .next t →
    ∃ tr' sg', step { s with trace := tr, signals := sg } = .next { t with trace := tr', signals := sg' }

/-- `BUS_DATA_RATE` and `SYMBOL_BIT_ORDER` are read by no rule (R11, R12, R54): with other values, the step is the same. -/
def Obligations.UnreadParametersChangeNothing : Prop :=
  ∀ (s t : State) (rate : Nat) (order : SymbolBitOrder), step s = .next t →
    step { s with cfg := { s.cfg with busDataRate := rate, symbolBitOrder := order } } =
      .next { t with cfg := { t.cfg with busDataRate := rate, symbolBitOrder := order } }

/-- One cycle as a single function (R162): from a free lock at `ACQUIRE` with `FB = snap`, the sequencer scheduled with the bus ready and no failure
emits exactly the frame of `COMPOSE(snap)` and comes back to `IDLE` with the lock free and `FB` as it was. The spec marks R162 as its own
inference. -/
def Obligations.WholeCycleTransmitsTheSnapshot : Prop :=
  ∀ (s : State) (rest : List Choice), Inv s → s.phase = .acquire → s.lock = .free →
    s.sched = List.replicate (cycleSteps s.cfg) (.sequencer true false) ++ rest →
    ∃ t, Sys2Proof.core.run (cycleSteps s.cfg) s = .next t ∧
      t.trace = s.trace ++ closedFrame (compose s.cfg s.fb) ∧ payload t = compose s.cfg s.fb ∧
      t.fb = s.fb ∧ t.lock = .free ∧ t.csN = 1#1 ∧ t.phase = .idle ∧ t.timer = s.cfg.refreshInterval ∧
      t.cmd = s.cmd ∧ t.signals = s.signals ∧ t.sched = rest

/-- The frame theorem (R71, the spec's own inference). Every step keeps the invariant of histories: `TRACE`, the snapshots taken when the lock was
taken, and the end of each cycle's `WRITE` (all symbols out, or the bus failure which that very step signalled) stay aligned. Under it the frames in
`TRACE` are, in order, `COMPOSE` of their own cycles' snapshots, each whole unless its own `WRITE` ended in a failure, and then cut at the count that
failure names. So it is at every point of every run, from every launch, under every environment. -/
def Obligations.FramesOnTheBusAreSnapshots : Prop :=
  (∀ h h' : Hist, HistInv h → h.next = some h' → HistInv h') ∧
  (∀ h : Hist, HistInv h → FramesAreSnapshots h) ∧
  (∀ (cfg : Cfg) (fbInit : List Pixel) (plInit : Memory) (sched : List Choice) (n : Nat),
    LaunchOk cfg fbInit plInit →
    ∃ h, (launch cfg fbInit plInit sched).after n = some h ∧ FramesAreSnapshots h)

/-- Every phase takes its exit (R164): when the sequencer is scheduled with the bus ready often enough for its phase's loop, and no reset
intervenes, the phase changes, whatever else is scheduled between. That `IDLE` takes `timer + 1` steps of the sequencer is the model's choice of
granularity (DESIGN CHOICE, log 18): R232 lets no claim depend on a duration. -/
def Obligations.EveryPhaseTakesItsExit : Prop :=
  ∀ (s : State) (cs rest : List Choice), Inv s → s.sched = cs ++ rest → (∀ c ∈ cs, isReset c = false) →
    exitBound s ≤ cs.countP isReadySequencer →
    ∃ n t, n ≤ cs.length ∧ Sys2Proof.core.run n s = .next t ∧ t.phase ≠ s.phase

/-- Fair arbitration excludes `LockStarvation` (R183, R189): in every infinite run, an agent that is again and again scheduled with the lock free
while it asks for it does not ask for ever. -/
def Obligations.FairArbitrationExcludesStarvation : Prop :=
  ∀ (env : Nat → Choice) (run : Nat → State) (a : Lock), IsRun env run → FairArbitration env run a → ¬LockStarvation run a

/-! ### The encoder (40_encoder.md) and the wire format (30_encoding.md part 1, 20_memory.md R59, R60) -/

/-- `ENCBIT` (R111): `S` copies of `SYM1` for a set bit, of `SYM0` for a clear one; the two groups differ in every position. -/
def Obligations.EncbitYieldsOneGroup : Prop :=
  ∀ c : Cfg, encBit c true = List.replicate c.symbolsPerBit c.sym1 ∧ encBit c false = List.replicate c.symbolsPerBit c.sym0 ∧
    (c.wf → ∀ k < c.symbolsPerBit, (encBit c true)[k]? ≠ (encBit c false)[k]?)

/-- `ENCBYTE(v, o)` (R112): within the payload it writes the eight groups, most significant bit first, at `o .. o+8*S-1` and nothing else, and answers
`o + 8*S`; a call whose field would leave the payload is refused. -/
def Obligations.EncbyteWritesItsFieldOrIsRefused : Prop :=
  ∀ (c : Cfg) (v : Byte) (o : Nat) (pl : Memory), Memory.wf pl →
    (o + 8 * c.symbolsPerBit ≤ c.payloadLen →
      ∃ pl', encByte c v o pl = .ok (pl', o + 8 * c.symbolsPerBit) ∧ Memory.wf pl' ∧
        (∀ j k, j < 8 → k < c.symbolsPerBit →
          Memory.read pl' (o + c.symbolsPerBit * j + k) = if v.getLsbD (7 - j) then c.sym1 else c.sym0) ∧
        (∀ a, a < o ∨ o + 8 * c.symbolsPerBit ≤ a → Memory.read pl' a = Memory.read pl a)) ∧
    (c.payloadLen < o + 8 * c.symbolsPerBit → encByte c v o pl = .error (.encoderOutsidePayload o))

/-- `ENCPIXEL(p, o)` (R113): green, then red, then blue, each as `ENCBYTE` writes it, at `o .. o+24*S-1` and nothing else; it answers `o + 24*S`. -/
def Obligations.EncpixelChainsGreenRedBlue : Prop :=
  ∀ (c : Cfg) (p : Pixel) (o : Nat) (pl : Memory), Memory.wf pl → o + 24 * c.symbolsPerBit ≤ c.payloadLen →
    ∃ pl', encPixel c p o pl = .ok (pl', o + 24 * c.symbolsPerBit) ∧ Memory.wf pl' ∧
      (∀ (ch j k : Nat) (v : Byte), [p.g, p.r, p.b][ch]? = some v → j < 8 → k < c.symbolsPerBit →
        Memory.read pl' (o + 8 * c.symbolsPerBit * ch + c.symbolsPerBit * j + k) =
          if v.getLsbD (7 - j) then c.sym1 else c.sym0) ∧
      (∀ a, a < o ∨ o + 24 * c.symbolsPerBit ≤ a → Memory.read pl' a = Memory.read pl a)

/-- The payload map is a bijection between the quadruples (pixel, channel, bit, slot) and the offsets `P .. L-1` (R59, the spec's
own inference). -/
def Obligations.PayloadMapIsABijection : Prop :=
  ∀ c : Cfg, c.wf →
    (∀ i ch j k, i < c.ledCount → ch < 3 → j < 8 → k < c.symbolsPerBit →
      c.preambleLen ≤ c.payloadOffset i ch j k ∧ c.payloadOffset i ch j k < c.payloadLen) ∧
    (∀ o, c.preambleLen ≤ o → o < c.payloadLen →
      ∃ i ch j k, i < c.ledCount ∧ ch < 3 ∧ j < 8 ∧ k < c.symbolsPerBit ∧ c.payloadOffset i ch j k = o) ∧
    (∀ i ch j k i' ch' j' k', ch < 3 → j < 8 → k < c.symbolsPerBit → ch' < 3 → j' < 8 → k' < c.symbolsPerBit →
      c.payloadOffset i ch j k = c.payloadOffset i' ch' j' k' → i = i' ∧ ch = ch' ∧ j = j' ∧ k = k')

/-- `COMPOSE(fb)` pointwise (R59, R114): the zero symbol below `P`, and at `offset(i, c, j, s)` the symbol of bit `7-j` of channel `c` of pixel `i`.
-/
def Obligations.ComposeFollowsThePayloadMap : Prop :=
  ∀ (c : Cfg) (fb : List Pixel), fb.length = c.ledCount →
    (∀ o, o < c.preambleLen → (compose c fb)[o]? = some 0x00#8) ∧
    (∀ (i ch j k : Nat) (p : Pixel) (v : Byte), fb[i]? = some p → [p.g, p.r, p.b][ch]? = some v → j < 8 → k < c.symbolsPerBit →
      (compose c fb)[c.payloadOffset i ch j k]? = some (if v.getLsbD (7 - j) then c.sym1 else c.sym0))

/-- "equals exactly `P + N * 3 * 8 * S` bytes" (R60), and only the zero symbol and the two symbol values stand in a complete frame, the zero symbol of
the preamble only below `P` (R85; R88 is the spec's own inference). -/
def Obligations.CompleteFrameHasItsLengthAndSymbols : Prop :=
  ∀ (c : Cfg) (fb : List Pixel), fb.length = c.ledCount →
    (compose c fb).length = c.preambleLen + c.ledCount * 3 * 8 * c.symbolsPerBit ∧
    (∀ y ∈ (compose c fb).take c.preambleLen, y = 0x00#8) ∧
    (∀ y ∈ (compose c fb).drop c.preambleLen, y = c.sym0 ∨ y = c.sym1)

/-- The §8 round trip of the encoder (R115): decoding what `ENCBYTE` wrote gives the byte back, for all 256 values, and every symbol of a group
equals the first symbol of its group. -/
def Obligations.DecbyteInvertsEncbyte : Prop :=
  ∀ (c : Cfg) (v : Byte) (o o' : Nat) (pl pl' : Memory), c.wf → Memory.wf pl → encByte c v o pl = .ok (pl', o') →
    decByte c (((Memory.symbols pl' c.payloadLen).drop o).take (8 * c.symbolsPerBit)) = some v ∧
    ∀ j k, j < 8 → k < c.symbolsPerBit →
      Memory.read pl' (o + c.symbolsPerBit * j + k) = Memory.read pl' (o + c.symbolsPerBit * j)

/-- `DECBYTE` is undefined on a sequence that holds a symbol that is neither `SYM0` nor `SYM1` (R115). -/
def Obligations.DecbyteIsUndefinedOffTheTwoSymbols : Prop :=
  ∀ (c : Cfg) (ys : List Symbol) (y : Symbol), y ∈ ys → y ≠ c.sym0 → y ≠ c.sym1 → decByte c ys = none

/-- Reading a complete frame back recovers its pixels (R87). -/
def Obligations.CompleteFrameReadsBack : Prop :=
  ∀ (c : Cfg) (fb : List Pixel), c.wf → fb.length = c.ledCount → decFrame c (compose c fb) = some fb

/-- `COMPOSE` is injective (R114, the spec's own inference): two frame buffers with the same payload are the same. -/
def Obligations.ComposeIsInjective : Prop :=
  ∀ (c : Cfg) (fb fb' : List Pixel), c.wf → fb.length = c.ledCount → fb'.length = c.ledCount →
    compose c fb = compose c fb' → fb = fb'

/-- The source's composed-frame scenario (95_test_vectors.md V6), for any two symbol values: 8 pixels, preamble 50, 8 symbols a bit, pixel 0 at
(1, 2, 4) and all others cleared. -/
def Obligations.SourceScenarioComposes : Prop :=
  ∀ c : Cfg, c.ledCount = 8 → c.preambleLen = 50 → c.symbolsPerBit = 8 →
    compose c (⟨0x01#8, 0x02#8, 0x04#8⟩ :: List.replicate 7 ⟨0#8, 0#8, 0#8⟩) =
      List.replicate 50 0x00#8 ++ List.replicate 56 c.sym0 ++ List.replicate 8 c.sym1 ++ List.replicate 48 c.sym0 ++
      List.replicate 8 c.sym1 ++ List.replicate 8 c.sym0 ++ List.replicate 40 c.sym0 ++ List.replicate 8 c.sym1 ++
      List.replicate 16 c.sym0 ++ List.replicate 1344 c.sym0
end

