-- ==== Sys2Proof/Laws/Decode.lean ====
section
/-! SUPPORT. The fields of a packed command word, and what masking leaves of it. -/

namespace Sys2Proof

theorem row_mem_opcodeTable (i : Instr) : i.row ∈ opcodeTable := by
  cases i <;> simp [opcodeTable, candidates, Instr.row]

theorem opField_packWord (op : BitVec 8) (index : BitVec 16) (c : Pixel) : opField (packWord op index c) = op := by
  apply BitVec.eq_of_getLsbD_eq
  intro k hk
  simp only [opField, packWord, BitVec.getLsbD_extractLsb', BitVec.getLsbD_append]
  have h1 : ¬40 + k < 8 := by omega
  have h2 : ¬40 + k - 8 < 8 := by omega
  have h3 : ¬40 + k - 8 - 8 < 8 := by omega
  have h4 : ¬40 + k - 8 - 8 - 8 < 16 := by omega
  have h5 : 40 + k - 8 - 8 - 8 - 16 = k := by omega
  simp [hk, h1, h2, h3, h4, h5]

theorem indexField_packWord (op : BitVec 8) (index : BitVec 16) (c : Pixel) : indexField (packWord op index c) = index := by
  apply BitVec.eq_of_getLsbD_eq
  intro k hk
  simp only [indexField, packWord, BitVec.getLsbD_extractLsb', BitVec.getLsbD_append]
  have h1 : ¬24 + k < 8 := by omega
  have h2 : ¬24 + k - 8 < 8 := by omega
  have h3 : ¬24 + k - 8 - 8 < 8 := by omega
  have h4 : 24 + k - 8 - 8 - 8 = k := by omega
  simp [hk, h1, h2, h3, h4]

/-- The opcode's mask keeps the masked opcode and clears every other bit. -/
theorem packWord_and_opMask (op mask : BitVec 8) (index : BitVec 16) (c : Pixel) :
    packWord op index c &&& (mask ++ 0#40) = (op &&& mask) ++ 0#40 := by
  apply BitVec.eq_of_getLsbD_eq
  intro k hk
  simp only [packWord, BitVec.getLsbD_and, BitVec.getLsbD_append]
  by_cases h : k < 40
  · simp [h]
  · have h1 : ¬k < 8 := by omega
    have h2 : ¬k - 8 < 8 := by omega
    have h3 : ¬k - 8 - 8 < 8 := by omega
    have h4 : ¬k - 8 - 8 - 8 < 16 := by omega
    have h5 : k - 8 - 8 - 8 - 16 = k - 40 := by omega
    simp [h, h1, h2, h3, h4, h5]

end Sys2Proof
end

