-- ==== Sys2Proof/Laws/Memory.lean ====
section
/-! SUPPORT. The laws of the payload memory: every write keeps the canonical form, a read after a write, and the dense view of a run of writes. -/

namespace Sys2Proof.Machine.Memory

theorem read_eq_unlisted_of_absent {m : Memory} {o : Nat} (h : ∀ x ∈ m, x.1 ≠ o) : read m o = unlisted := by
  induction m with
  | nil => rfl
  | cons x rest ih =>
    obtain ⟨a, v⟩ := x
    have ha : a ≠ o := h (a, v) (by simp)
    simp only [read, ha, if_false]
    exact ih fun y hy => h y (by simp [hy])

theorem mem_cons {o : Nat} {v : Symbol} {rest : Memory} {x : Host.Cell} (h : x ∈ cons o v rest) :
    x = (o, v) ∧ v ≠ unlisted ∨ x ∈ rest := by
  unfold cons at h
  split at h
  · exact .inr h
  · rcases List.mem_cons.1 h with h | h
    · exact .inl ⟨h, by assumption⟩
    · exact .inr h

theorem wf_nil : wf [] := by simp [wf]

/-- The payload memory of the reset state has its canonical form. -/
theorem wf_reset : wf State.reset.pl := wf_nil

theorem wf_tail {x : Host.Cell} {rest : Memory} (h : wf (x :: rest)) : wf rest :=
  ⟨(List.pairwise_cons.1 h.1).2, fun y hy => h.2 y (List.mem_cons_of_mem _ hy)⟩

theorem lt_of_wf_cons {x y : Host.Cell} {rest : Memory} (h : wf (x :: rest)) (hy : y ∈ rest) : x.1 < y.1 :=
  (List.pairwise_cons.1 h.1).1 y hy

theorem wf_cons {o : Nat} {v : Symbol} {rest : Memory} (h : wf rest) (hlt : ∀ y ∈ rest, o < y.1) : wf (cons o v rest) := by
  unfold cons
  split
  · exact h
  · refine ⟨List.pairwise_cons.2 ⟨hlt, h.1⟩, fun y hy => ?_⟩
    rcases List.mem_cons.1 hy with rfl | hy
    · assumption
    · exact h.2 y hy

theorem read_cons {o : Nat} {v : Symbol} {rest : Memory} (hlt : ∀ y ∈ rest, o < y.1) (a : Nat) :
    read (cons o v rest) a = if a = o then v else read rest a := by
  unfold cons
  split
  · next hv =>
    split
    · next ha =>
      subst ha
      rw [hv, read_eq_unlisted_of_absent fun x hx => Nat.ne_of_gt (hlt x hx)]
    · rfl
  · simp only [read, eq_comm]

/-- An entry after a write is the entry written or an old one. -/
theorem mem_write {m : Memory} {o : Nat} {v : Symbol} {x : Host.Cell} (h : x ∈ write m o v) : x.1 = o ∨ x ∈ m := by
  induction m with
  | nil =>
    rcases mem_cons h with ⟨rfl, _⟩ | h
    · exact .inl rfl
    · exact .inr h
  | cons y rest ih =>
    obtain ⟨a, w⟩ := y
    simp only [write] at h
    split at h
    · rcases mem_cons h with ⟨rfl, _⟩ | h
      · exact .inl rfl
      · exact .inr h
    · split at h
      · rcases mem_cons h with ⟨rfl, _⟩ | h
        · exact .inl rfl
        · exact .inr (List.mem_cons_of_mem _ h)
      · rcases List.mem_cons.1 h with rfl | h
        · exact .inr (by simp)
        · rcases ih h with h | h
          · exact .inl h
          · exact .inr (List.mem_cons_of_mem _ h)

/-- A write keeps the canonical form. -/
theorem write_keeps_wf {m : Memory} (o : Nat) (v : Symbol) (h : wf m) : wf (write m o v) := by
  induction m with
  | nil => exact wf_cons wf_nil (by simp)
  | cons y rest ih =>
    obtain ⟨a, w⟩ := y
    simp only [write]
    split
    · next hlt =>
      refine wf_cons h fun y hy => ?_
      rcases List.mem_cons.1 hy with rfl | hy
      · exact hlt
      · exact Nat.lt_trans hlt (lt_of_wf_cons h hy)
    · split
      · next heq =>
        subst heq
        exact wf_cons (wf_tail h) fun y hy => lt_of_wf_cons h hy
      · next hge hne =>
        have ht := ih (wf_tail h)
        refine ⟨List.pairwise_cons.2 ⟨fun y hy => ?_, ht.1⟩, fun y hy => ?_⟩
        · rcases mem_write hy with hy | hy
          · simp only [hy]; omega
          · exact lt_of_wf_cons h hy
        · rcases List.mem_cons.1 hy with rfl | hy
          · exact h.2 _ (by simp)
          · exact ht.2 y hy

/-- A read after a write. -/
theorem read_write {m : Memory} (h : wf m) (o : Nat) (v : Symbol) (a : Nat) :
    read (write m o v) a = if a = o then v else read m a := by
  induction m with
  | nil => exact read_cons (by simp) a
  | cons y rest ih =>
    obtain ⟨b, w⟩ := y
    simp only [write]
    split
    · next hlt =>
      refine read_cons (fun y hy => ?_) a
      rcases List.mem_cons.1 hy with rfl | hy
      · exact hlt
      · exact Nat.lt_trans hlt (lt_of_wf_cons h hy)
    · split
      · next heq =>
        subst heq
        rw [read_cons fun y hy => lt_of_wf_cons h hy]
        by_cases ha : a = o
        · simp [ha]
        · simp [read, ha, Ne.symm ha]
      · next hne =>
        simp only [read, ih (wf_tail h)]
        split <;> split <;> simp_all

/-- Two canonical memories that read alike everywhere are equal. -/
theorem ext_of_read {m n : Memory} (hm : wf m) (hn : wf n) (h : ∀ a, read m a = read n a) : m = n := by
  induction m generalizing n with
  | nil =>
    cases n with
    | nil => rfl
    | cons y rest =>
      have h2 := h y.1
      simp only [read, if_true] at h2
      exact absurd h2.symm (hn.2 y (by simp))
  | cons x rest ih =>
    obtain ⟨a, v⟩ := x
    have hv : v ≠ unlisted := hm.2 (a, v) (by simp)
    cases n with
    | nil =>
      have h2 := h a
      simp only [read, if_true] at h2
      exact absurd h2 hv
    | cons y rest' =>
      obtain ⟨b, w⟩ := y
      have hw : w ≠ unlisted := hn.2 (b, w) (by simp)
      have absent : ∀ {k : Nat} {x : Host.Cell} {r : Memory}, wf (x :: r) → k < x.1 → read (x :: r) k = unlisted := by
        intro k x r hr hk
        refine read_eq_unlisted_of_absent fun y hy => ?_
        rcases List.mem_cons.1 hy with rfl | hy
        · omega
        · exact Nat.ne_of_gt (Nat.lt_trans hk (lt_of_wf_cons hr hy))
      rcases Nat.lt_trichotomy a b with hab | hab | hab
      · have h2 := h a
        rw [absent hn hab] at h2
        simp only [read, if_true] at h2
        exact absurd h2 hv
      · subst hab
        have hvw : v = w := by simpa [read] using h a
        subst hvw
        have : rest = rest' := by
          refine ih (wf_tail hm) (wf_tail hn) fun k => ?_
          by_cases hk : a = k
          · subst hk
            rw [read_eq_unlisted_of_absent fun y hy => Nat.ne_of_gt (lt_of_wf_cons hm hy),
              read_eq_unlisted_of_absent fun y hy => Nat.ne_of_gt (lt_of_wf_cons hn hy)]
          · simpa [read, hk] using h k
        rw [this]
      · have h2 := h b
        rw [absent hm hab] at h2
        simp only [read, if_true] at h2
        exact absurd h2.symm hw

/-! ### Runs of writes -/

theorem writeAll_keeps_wf {m : Memory} (h : wf m) (o : Nat) (vs : List Symbol) : wf (writeAll m o vs) := by
  induction vs generalizing m o with
  | nil => exact h
  | cons v rest ih => exact ih (write_keeps_wf o v h) (o + 1)

theorem mem_writeAll {m : Memory} {o : Nat} {vs : List Symbol} {x : Host.Cell} (h : x ∈ writeAll m o vs) :
    o ≤ x.1 ∧ x.1 < o + vs.length ∨ x ∈ m := by
  induction vs generalizing m o with
  | nil => exact .inr h
  | cons v rest ih =>
    simp only [List.length_cons]
    rcases ih h with ⟨h1, h2⟩ | h
    · exact .inl ⟨by omega, by omega⟩
    · rcases mem_write h with h | h
      · exact .inl ⟨by omega, by omega⟩
      · exact .inr h

theorem writeAll_append (m : Memory) (o : Nat) (xs ys : List Symbol) :
    writeAll m o (xs ++ ys) = writeAll (writeAll m o xs) (o + xs.length) ys := by
  induction xs generalizing m o with
  | nil => rfl
  | cons x rest ih =>
    simp only [List.cons_append, writeAll, ih, List.length_cons]
    congr 1
    omega

/-- A read after a run of writes: the symbol written there, or the old one. -/
theorem read_writeAll {m : Memory} (h : wf m) (o : Nat) (vs : List Symbol) (a : Nat) :
    read (writeAll m o vs) a = if o ≤ a then (vs[a - o]?).getD (read m a) else read m a := by
  induction vs generalizing m o with
  | nil => simp [writeAll]
  | cons v rest ih =>
    simp only [writeAll, ih (write_keeps_wf o v h), read_write h]
    rcases Nat.lt_trichotomy a o with hao | hao | hao
    · simp [show ¬ o ≤ a by omega, show ¬ o + 1 ≤ a by omega, show a ≠ o by omega]
    · subst hao
      simp
    · obtain ⟨k, rfl⟩ : ∃ k, a = o + 1 + k := ⟨a - (o + 1), by omega⟩
      simp [show o ≤ o + 1 + k by omega, show o + 1 + k - o = k + 1 by omega, show o + 1 + k ≠ o by omega]

@[simp] theorem symbols_length (m : Memory) (n : Nat) : (symbols m n).length = n := by simp [symbols]

@[simp] theorem symbols_getElem? (m : Memory) (n o : Nat) : (symbols m n)[o]? = if o < n then some (read m o) else none := by
  by_cases h : o < n <;> simp [symbols, h]

/-- The dense view after a run of writes. -/
theorem symbols_writeAll {m : Memory} (h : wf m) {o n : Nat} {vs : List Symbol} (hn : o + vs.length ≤ n) :
    symbols (writeAll m o vs) n = (symbols m n).take o ++ vs ++ (symbols m n).drop (o + vs.length) := by
  apply List.ext_getElem?
  intro a
  have hl : ((symbols m n).take o).length = o := by simp; omega
  rw [symbols_getElem?, read_writeAll h, List.append_assoc]
  by_cases h1 : a < o
  · rw [List.getElem?_append_left (by omega), List.getElem?_take]
    simp [h1, show ¬ o ≤ a by omega]
  · rw [List.getElem?_append_right (by omega), hl]
    by_cases h2 : a < o + vs.length
    · rw [List.getElem?_append_left (by omega)]
      simp [show o ≤ a by omega, show a < n by omega, List.getElem?_eq_getElem (show a - o < vs.length by omega)]
    · rw [List.getElem?_append_right (by omega), List.getElem?_drop, symbols_getElem?,
        show o + vs.length + (a - o - vs.length) = a by omega]
      simp [show o ≤ a by omega, List.getElem?_eq_none (show vs.length ≤ a - o by omega)]

end Sys2Proof.Machine.Memory
end

