-- ==== Sys2Proof/Laws/Encoder.lean ====
section
/-! SUPPORT. The laws of the encoder: lengths, and what one call of ENCBYTE or ENCPIXEL does. -/

namespace Sys2Proof.Machine

@[simp] theorem encBit_length (c : Cfg) (bit : Bool) : (encBit c bit).length = c.symbolsPerBit := by simp [encBit]

theorem mem_encBit {c : Cfg} {bit : Bool} {y : Symbol} (h : y ∈ encBit c bit) : y = if bit then c.sym1 else c.sym0 :=
  List.eq_of_mem_replicate h

@[simp] theorem channelSymbols_length (c : Cfg) (v : Byte) : (channelSymbols c v).length = c.channelLen := by
  simp [channelSymbols, Cfg.channelLen, List.length_flatMap]
  omega

/-- Only the two symbol values stand in a channel field. -/
theorem mem_channelSymbols {c : Cfg} {v : Byte} {y : Symbol} (h : y ∈ channelSymbols c v) : y = c.sym0 ∨ y = c.sym1 := by
  obtain ⟨j, _, hj⟩ := List.mem_flatMap.1 h
  rw [mem_encBit hj]
  split
  · exact .inr rfl
  · exact .inl rfl

theorem pixelSymbols_eq (c : Cfg) (p : Pixel) :
    pixelSymbols c p = channelSymbols c p.g ++ channelSymbols c p.r ++ channelSymbols c p.b := by
  simp [pixelSymbols, Cfg.channelOrder, Pixel.channel]

@[simp] theorem pixelSymbols_length (c : Cfg) (p : Pixel) : (pixelSymbols c p).length = c.pixelLen := by
  simp only [pixelSymbols_eq, List.length_append, channelSymbols_length, Cfg.pixelLen]
  omega

@[simp] theorem flatMap_pixelSymbols_length (c : Cfg) (fb : List Pixel) :
    (fb.flatMap (pixelSymbols c)).length = fb.length * c.pixelLen := by
  simp [List.length_flatMap]

@[simp] theorem compose_length (c : Cfg) (fb : List Pixel) :
    (compose c fb).length = c.preambleLen + fb.length * c.pixelLen := by
  simp [compose]

theorem compose_length_of_full {c : Cfg} {fb : List Pixel} (h : fb.length = c.ledCount) :
    (compose c fb).length = c.payloadLen := by
  simp [Cfg.payloadLen, h]

/-- The payload of the first `i + 1` pixels is that of the first `i`, then pixel `i`. -/
theorem compose_take_succ (c : Cfg) {fb : List Pixel} {i : Nat} {p : Pixel} (h : fb[i]? = some p) :
    compose c (fb.take (i + 1)) = compose c (fb.take i) ++ pixelSymbols c p := by
  rw [List.take_add_one, h]
  simp [compose]

/-- A prefix of the frame buffer composes to a prefix of the payload. -/
theorem compose_take (c : Cfg) (fb : List Pixel) (i : Nat) : compose c (fb.take i) <+: compose c fb := by
  conv_rhs => rw [← List.take_append_drop i fb]
  exact ⟨(fb.drop i).flatMap (pixelSymbols c), by simp [compose, ← List.flatMap_append]⟩

/-! ### One call of the encoder -/

/-- All that `ENCBYTE` can answer. -/
theorem encByte_cases (c : Cfg) (v : Byte) (o : Nat) (pl : Memory) :
    (o + c.channelLen ≤ c.payloadLen ∧
      encByte c v o pl = .ok (Memory.writeAll pl o (channelSymbols c v), o + c.channelLen)) ∨
    (c.payloadLen < o + c.channelLen ∧ encByte c v o pl = .error (.encoderOutsidePayload o)) := by
  unfold encByte
  by_cases h : o + c.channelLen ≤ c.payloadLen
  · exact .inl ⟨h, by simp [h]⟩
  · exact .inr ⟨by omega, by simp [h]⟩

theorem encByte_of_fits {c : Cfg} {o : Nat} (h : o + c.channelLen ≤ c.payloadLen) (v : Byte) (pl : Memory) :
    encByte c v o pl = .ok (Memory.writeAll pl o (channelSymbols c v), o + c.channelLen) := by
  simp [encByte, h]

/-- Within the payload, `ENCPIXEL` writes the pixel's field and answers the updated offset. -/
theorem encPixel_of_fits {c : Cfg} {o : Nat} (h : o + c.pixelLen ≤ c.payloadLen) (p : Pixel) (pl : Memory) :
    encPixel c p o pl = .ok (Memory.writeAll pl o (pixelSymbols c p), o + c.pixelLen) := by
  have hp : c.pixelLen = 3 * c.channelLen := rfl
  simp only [encPixel, Cfg.channelOrder, encChannels, Pixel.channel]
  rw [encByte_of_fits (by omega)]
  simp only
  rw [encByte_of_fits (by omega)]
  simp only
  rw [encByte_of_fits (by omega)]
  simp only [pixelSymbols_eq, Memory.writeAll_append, channelSymbols_length, List.length_append, Except.ok.injEq,
    Prod.mk.injEq]
  exact ⟨by rw [Nat.add_assoc], by omega⟩

/-- Outside the payload, `ENCPIXEL` is refused. -/
theorem encPixel_of_outside {c : Cfg} {o : Nat} (h : c.payloadLen < o + c.pixelLen) (p : Pixel) (pl : Memory) :
    ∃ k, encPixel c p o pl = .error (.encoderOutsidePayload k) := by
  have hp : c.pixelLen = 3 * c.channelLen := rfl
  simp only [encPixel, Cfg.channelOrder, encChannels, Pixel.channel]
  rcases encByte_cases c p.g o pl with ⟨_, h1⟩ | ⟨_, h1⟩
  · simp only [h1]
    rcases encByte_cases c p.r (o + c.channelLen) (Memory.writeAll pl o (channelSymbols c p.g)) with ⟨_, h2⟩ | ⟨_, h2⟩
    · simp only [h2]
      rcases encByte_cases c p.b (o + c.channelLen + c.channelLen)
        (Memory.writeAll (Memory.writeAll pl o (channelSymbols c p.g)) (o + c.channelLen) (channelSymbols c p.r))
        with ⟨h4, _⟩ | ⟨_, h3⟩
      · omega
      · exact ⟨_, by simp only [h3]; rfl⟩
    · exact ⟨_, by simp only [h2]; rfl⟩
  · exact ⟨_, by simp only [h1]; rfl⟩

end Sys2Proof.Machine
end

