-- ==== Sys2Proof/Laws/State.lean ====
section
/-! SUPPORT. One lemma per field per named update of State, and the state after reset field by field, so that no later proof unfolds an update. -/

namespace Sys2Proof.Machine

variable (s : State)

/-! ### `setLock` -/

@[simp] theorem setLock_cfg (a : Lock) : (setLock a s).cfg = s.cfg := rfl
@[simp] theorem setLock_fb (a : Lock) : (setLock a s).fb = s.fb := rfl
@[simp] theorem setLock_lock (a : Lock) : (setLock a s).lock = a := rfl
@[simp] theorem setLock_pl (a : Lock) : (setLock a s).pl = s.pl := rfl
@[simp] theorem setLock_phase (a : Lock) : (setLock a s).phase = s.phase := rfl
@[simp] theorem setLock_px (a : Lock) : (setLock a s).px = s.px := rfl
@[simp] theorem setLock_wo (a : Lock) : (setLock a s).wo = s.wo := rfl
@[simp] theorem setLock_rk (a : Lock) : (setLock a s).rk = s.rk := rfl
@[simp] theorem setLock_timer (a : Lock) : (setLock a s).timer = s.timer := rfl
@[simp] theorem setLock_csN (a : Lock) : (setLock a s).csN = s.csN := rfl
@[simp] theorem setLock_cmd (a : Lock) : (setLock a s).cmd = s.cmd := rfl
@[simp] theorem setLock_trace (a : Lock) : (setLock a s).trace = s.trace := rfl
@[simp] theorem setLock_signals (a : Lock) : (setLock a s).signals = s.signals := rfl
@[simp] theorem setLock_port (a : Lock) : (setLock a s).port = s.port := rfl
@[simp] theorem setLock_sched (a : Lock) : (setLock a s).sched = s.sched := rfl
@[simp] theorem setLock_draws (a : Lock) : (setLock a s).draws = s.draws := rfl

/-! ### `setSelect` -/

@[simp] theorem setSelect_cfg (v : BitVec 1) : (setSelect v s).cfg = s.cfg := rfl
@[simp] theorem setSelect_fb (v : BitVec 1) : (setSelect v s).fb = s.fb := rfl
@[simp] theorem setSelect_lock (v : BitVec 1) : (setSelect v s).lock = s.lock := rfl
@[simp] theorem setSelect_pl (v : BitVec 1) : (setSelect v s).pl = s.pl := rfl
@[simp] theorem setSelect_phase (v : BitVec 1) : (setSelect v s).phase = s.phase := rfl
@[simp] theorem setSelect_px (v : BitVec 1) : (setSelect v s).px = s.px := rfl
@[simp] theorem setSelect_wo (v : BitVec 1) : (setSelect v s).wo = s.wo := rfl
@[simp] theorem setSelect_rk (v : BitVec 1) : (setSelect v s).rk = s.rk := rfl
@[simp] theorem setSelect_timer (v : BitVec 1) : (setSelect v s).timer = s.timer := rfl
@[simp] theorem setSelect_csN (v : BitVec 1) : (setSelect v s).csN = v := rfl
@[simp] theorem setSelect_cmd (v : BitVec 1) : (setSelect v s).cmd = s.cmd := rfl
@[simp] theorem setSelect_trace (v : BitVec 1) : (setSelect v s).trace = s.trace := rfl
@[simp] theorem setSelect_signals (v : BitVec 1) : (setSelect v s).signals = s.signals := rfl
@[simp] theorem setSelect_port (v : BitVec 1) : (setSelect v s).port = s.port := rfl
@[simp] theorem setSelect_sched (v : BitVec 1) : (setSelect v s).sched = s.sched := rfl
@[simp] theorem setSelect_draws (v : BitVec 1) : (setSelect v s).draws = s.draws := rfl

/-! ### `setPhase` -/

@[simp] theorem setPhase_cfg (x : Phase) : (setPhase x s).cfg = s.cfg := rfl
@[simp] theorem setPhase_fb (x : Phase) : (setPhase x s).fb = s.fb := rfl
@[simp] theorem setPhase_lock (x : Phase) : (setPhase x s).lock = s.lock := rfl
@[simp] theorem setPhase_pl (x : Phase) : (setPhase x s).pl = s.pl := rfl
@[simp] theorem setPhase_phase (x : Phase) : (setPhase x s).phase = x := rfl
@[simp] theorem setPhase_px (x : Phase) : (setPhase x s).px = s.px := rfl
@[simp] theorem setPhase_wo (x : Phase) : (setPhase x s).wo = s.wo := rfl
@[simp] theorem setPhase_rk (x : Phase) : (setPhase x s).rk = s.rk := rfl
@[simp] theorem setPhase_timer (x : Phase) : (setPhase x s).timer = s.timer := rfl
@[simp] theorem setPhase_csN (x : Phase) : (setPhase x s).csN = s.csN := rfl
@[simp] theorem setPhase_cmd (x : Phase) : (setPhase x s).cmd = s.cmd := rfl
@[simp] theorem setPhase_trace (x : Phase) : (setPhase x s).trace = s.trace := rfl
@[simp] theorem setPhase_signals (x : Phase) : (setPhase x s).signals = s.signals := rfl
@[simp] theorem setPhase_port (x : Phase) : (setPhase x s).port = s.port := rfl
@[simp] theorem setPhase_sched (x : Phase) : (setPhase x s).sched = s.sched := rfl
@[simp] theorem setPhase_draws (x : Phase) : (setPhase x s).draws = s.draws := rfl

/-! ### `setLatch` -/

@[simp] theorem setLatch_cfg (p : Nat) (v : Option CmdWord) : (setLatch p v s).cfg = s.cfg := rfl
@[simp] theorem setLatch_fb (p : Nat) (v : Option CmdWord) : (setLatch p v s).fb = s.fb := rfl
@[simp] theorem setLatch_lock (p : Nat) (v : Option CmdWord) : (setLatch p v s).lock = s.lock := rfl
@[simp] theorem setLatch_pl (p : Nat) (v : Option CmdWord) : (setLatch p v s).pl = s.pl := rfl
@[simp] theorem setLatch_phase (p : Nat) (v : Option CmdWord) : (setLatch p v s).phase = s.phase := rfl
@[simp] theorem setLatch_px (p : Nat) (v : Option CmdWord) : (setLatch p v s).px = s.px := rfl
@[simp] theorem setLatch_wo (p : Nat) (v : Option CmdWord) : (setLatch p v s).wo = s.wo := rfl
@[simp] theorem setLatch_rk (p : Nat) (v : Option CmdWord) : (setLatch p v s).rk = s.rk := rfl
@[simp] theorem setLatch_timer (p : Nat) (v : Option CmdWord) : (setLatch p v s).timer = s.timer := rfl
@[simp] theorem setLatch_csN (p : Nat) (v : Option CmdWord) : (setLatch p v s).csN = s.csN := rfl
@[simp] theorem setLatch_cmd (p : Nat) (v : Option CmdWord) : (setLatch p v s).cmd = s.cmd.set p v := rfl
@[simp] theorem setLatch_trace (p : Nat) (v : Option CmdWord) : (setLatch p v s).trace = s.trace := rfl
@[simp] theorem setLatch_signals (p : Nat) (v : Option CmdWord) : (setLatch p v s).signals = s.signals := rfl
@[simp] theorem setLatch_port (p : Nat) (v : Option CmdWord) : (setLatch p v s).port = s.port := rfl
@[simp] theorem setLatch_sched (p : Nat) (v : Option CmdWord) : (setLatch p v s).sched = s.sched := rfl
@[simp] theorem setLatch_draws (p : Nat) (v : Option CmdWord) : (setLatch p v s).draws = s.draws := rfl

/-! ### `completeCommand` -/

@[simp] theorem completeCommand_cfg : (completeCommand s).cfg = s.cfg := rfl
@[simp] theorem completeCommand_fb : (completeCommand s).fb = s.fb := rfl
@[simp] theorem completeCommand_lock : (completeCommand s).lock = s.lock := rfl
@[simp] theorem completeCommand_pl : (completeCommand s).pl = s.pl := rfl
@[simp] theorem completeCommand_phase : (completeCommand s).phase = s.phase := rfl
@[simp] theorem completeCommand_px : (completeCommand s).px = s.px := rfl
@[simp] theorem completeCommand_wo : (completeCommand s).wo = s.wo := rfl
@[simp] theorem completeCommand_rk : (completeCommand s).rk = s.rk := rfl
@[simp] theorem completeCommand_timer : (completeCommand s).timer = s.timer := rfl
@[simp] theorem completeCommand_csN : (completeCommand s).csN = s.csN := rfl
@[simp] theorem completeCommand_cmd : (completeCommand s).cmd = s.cmd.set s.port none := rfl
@[simp] theorem completeCommand_trace : (completeCommand s).trace = s.trace := rfl
@[simp] theorem completeCommand_signals : (completeCommand s).signals = s.signals := rfl
@[simp] theorem completeCommand_port : (completeCommand s).port = s.port := rfl
@[simp] theorem completeCommand_sched : (completeCommand s).sched = s.sched := rfl
@[simp] theorem completeCommand_draws : (completeCommand s).draws = s.draws := rfl

/-! ### `emit` -/

@[simp] theorem emit_cfg (e : BusEvent) : (emit e s).cfg = s.cfg := rfl
@[simp] theorem emit_fb (e : BusEvent) : (emit e s).fb = s.fb := rfl
@[simp] theorem emit_lock (e : BusEvent) : (emit e s).lock = s.lock := rfl
@[simp] theorem emit_pl (e : BusEvent) : (emit e s).pl = s.pl := rfl
@[simp] theorem emit_phase (e : BusEvent) : (emit e s).phase = s.phase := rfl
@[simp] theorem emit_px (e : BusEvent) : (emit e s).px = s.px := rfl
@[simp] theorem emit_wo (e : BusEvent) : (emit e s).wo = s.wo := rfl
@[simp] theorem emit_rk (e : BusEvent) : (emit e s).rk = s.rk := rfl
@[simp] theorem emit_timer (e : BusEvent) : (emit e s).timer = s.timer := rfl
@[simp] theorem emit_csN (e : BusEvent) : (emit e s).csN = s.csN := rfl
@[simp] theorem emit_cmd (e : BusEvent) : (emit e s).cmd = s.cmd := rfl
@[simp] theorem emit_trace (e : BusEvent) : (emit e s).trace = s.trace ++ [e] := rfl
@[simp] theorem emit_signals (e : BusEvent) : (emit e s).signals = s.signals := rfl
@[simp] theorem emit_port (e : BusEvent) : (emit e s).port = s.port := rfl
@[simp] theorem emit_sched (e : BusEvent) : (emit e s).sched = s.sched := rfl
@[simp] theorem emit_draws (e : BusEvent) : (emit e s).draws = s.draws := rfl

/-! ### `signal` -/

@[simp] theorem signal_cfg (e : Signal) : (signal e s).cfg = s.cfg := rfl
@[simp] theorem signal_fb (e : Signal) : (signal e s).fb = s.fb := rfl
@[simp] theorem signal_lock (e : Signal) : (signal e s).lock = s.lock := rfl
@[simp] theorem signal_pl (e : Signal) : (signal e s).pl = s.pl := rfl
@[simp] theorem signal_phase (e : Signal) : (signal e s).phase = s.phase := rfl
@[simp] theorem signal_px (e : Signal) : (signal e s).px = s.px := rfl
@[simp] theorem signal_wo (e : Signal) : (signal e s).wo = s.wo := rfl
@[simp] theorem signal_rk (e : Signal) : (signal e s).rk = s.rk := rfl
@[simp] theorem signal_timer (e : Signal) : (signal e s).timer = s.timer := rfl
@[simp] theorem signal_csN (e : Signal) : (signal e s).csN = s.csN := rfl
@[simp] theorem signal_cmd (e : Signal) : (signal e s).cmd = s.cmd := rfl
@[simp] theorem signal_trace (e : Signal) : (signal e s).trace = s.trace := rfl
@[simp] theorem signal_signals (e : Signal) : (signal e s).signals = s.signals ++ [e] := rfl
@[simp] theorem signal_port (e : Signal) : (signal e s).port = s.port := rfl
@[simp] theorem signal_sched (e : Signal) : (signal e s).sched = s.sched := rfl
@[simp] theorem signal_draws (e : Signal) : (signal e s).draws = s.draws := rfl

/-! ### `selectPort` -/

@[simp] theorem selectPort_cfg (p : Nat) : (selectPort p s).cfg = s.cfg := rfl
@[simp] theorem selectPort_fb (p : Nat) : (selectPort p s).fb = s.fb := rfl
@[simp] theorem selectPort_lock (p : Nat) : (selectPort p s).lock = s.lock := rfl
@[simp] theorem selectPort_pl (p : Nat) : (selectPort p s).pl = s.pl := rfl
@[simp] theorem selectPort_phase (p : Nat) : (selectPort p s).phase = s.phase := rfl
@[simp] theorem selectPort_px (p : Nat) : (selectPort p s).px = s.px := rfl
@[simp] theorem selectPort_wo (p : Nat) : (selectPort p s).wo = s.wo := rfl
@[simp] theorem selectPort_rk (p : Nat) : (selectPort p s).rk = s.rk := rfl
@[simp] theorem selectPort_timer (p : Nat) : (selectPort p s).timer = s.timer := rfl
@[simp] theorem selectPort_csN (p : Nat) : (selectPort p s).csN = s.csN := rfl
@[simp] theorem selectPort_cmd (p : Nat) : (selectPort p s).cmd = s.cmd := rfl
@[simp] theorem selectPort_trace (p : Nat) : (selectPort p s).trace = s.trace := rfl
@[simp] theorem selectPort_signals (p : Nat) : (selectPort p s).signals = s.signals := rfl
@[simp] theorem selectPort_port (p : Nat) : (selectPort p s).port = p := rfl
@[simp] theorem selectPort_sched (p : Nat) : (selectPort p s).sched = s.sched := rfl
@[simp] theorem selectPort_draws (p : Nat) : (selectPort p s).draws = s.draws := rfl

/-! ### `applyReset`: what reset leaves (R210 to R213) and what it does not touch -/

@[simp] theorem applyReset_cfg (fb : List Pixel) (pl : List Symbol) : (applyReset fb pl s).cfg = s.cfg := rfl
@[simp] theorem applyReset_fb (fb : List Pixel) (pl : List Symbol) : (applyReset fb pl s).fb = fitPixels s.cfg.ledCount fb := rfl
@[simp] theorem applyReset_lock (fb : List Pixel) (pl : List Symbol) : (applyReset fb pl s).lock = .free := rfl
@[simp] theorem applyReset_pl (fb : List Pixel) (pl : List Symbol) : (applyReset fb pl s).pl = Memory.writeAll [] 0 (pl.take s.cfg.payloadLen) := rfl
@[simp] theorem applyReset_phase (fb : List Pixel) (pl : List Symbol) : (applyReset fb pl s).phase = .idle := rfl
@[simp] theorem applyReset_px (fb : List Pixel) (pl : List Symbol) : (applyReset fb pl s).px = 0 := rfl
@[simp] theorem applyReset_wo (fb : List Pixel) (pl : List Symbol) : (applyReset fb pl s).wo = 0 := rfl
@[simp] theorem applyReset_rk (fb : List Pixel) (pl : List Symbol) : (applyReset fb pl s).rk = 0 := rfl
@[simp] theorem applyReset_timer (fb : List Pixel) (pl : List Symbol) : (applyReset fb pl s).timer = 0 := rfl
@[simp] theorem applyReset_csN (fb : List Pixel) (pl : List Symbol) : (applyReset fb pl s).csN = 1#1 := rfl
@[simp] theorem applyReset_cmd (fb : List Pixel) (pl : List Symbol) : (applyReset fb pl s).cmd = List.replicate s.cfg.numProducers none := rfl
@[simp] theorem applyReset_trace (fb : List Pixel) (pl : List Symbol) : (applyReset fb pl s).trace = [] := rfl
@[simp] theorem applyReset_signals (fb : List Pixel) (pl : List Symbol) : (applyReset fb pl s).signals = s.signals := rfl
@[simp] theorem applyReset_port (fb : List Pixel) (pl : List Symbol) : (applyReset fb pl s).port = s.port := rfl
@[simp] theorem applyReset_sched (fb : List Pixel) (pl : List Symbol) : (applyReset fb pl s).sched = s.sched := rfl
@[simp] theorem applyReset_draws (fb : List Pixel) (pl : List Symbol) : (applyReset fb pl s).draws = s.draws := rfl

/-! ### `consumeChoice`: only the environment's own part moves -/

@[simp] theorem consumeChoice_cfg : (consumeChoice s).cfg = s.cfg := by unfold consumeChoice; split <;> rfl
@[simp] theorem consumeChoice_fb : (consumeChoice s).fb = s.fb := by unfold consumeChoice; split <;> rfl
@[simp] theorem consumeChoice_lock : (consumeChoice s).lock = s.lock := by unfold consumeChoice; split <;> rfl
@[simp] theorem consumeChoice_pl : (consumeChoice s).pl = s.pl := by unfold consumeChoice; split <;> rfl
@[simp] theorem consumeChoice_phase : (consumeChoice s).phase = s.phase := by unfold consumeChoice; split <;> rfl
@[simp] theorem consumeChoice_px : (consumeChoice s).px = s.px := by unfold consumeChoice; split <;> rfl
@[simp] theorem consumeChoice_wo : (consumeChoice s).wo = s.wo := by unfold consumeChoice; split <;> rfl
@[simp] theorem consumeChoice_rk : (consumeChoice s).rk = s.rk := by unfold consumeChoice; split <;> rfl
@[simp] theorem consumeChoice_timer : (consumeChoice s).timer = s.timer := by unfold consumeChoice; split <;> rfl
@[simp] theorem consumeChoice_csN : (consumeChoice s).csN = s.csN := by unfold consumeChoice; split <;> rfl
@[simp] theorem consumeChoice_cmd : (consumeChoice s).cmd = s.cmd := by unfold consumeChoice; split <;> rfl
@[simp] theorem consumeChoice_trace : (consumeChoice s).trace = s.trace := by unfold consumeChoice; split <;> rfl
@[simp] theorem consumeChoice_signals : (consumeChoice s).signals = s.signals := by unfold consumeChoice; split <;> rfl
@[simp] theorem consumeChoice_port : (consumeChoice s).port = s.port := by unfold consumeChoice; split <;> rfl

end Sys2Proof.Machine
end

