-- ==== Sys2Proof/Laws/Ops.lean ====
section
/-! SUPPORT. What each shared operation can answer, said once; the provers cite these lemmas and do not unfold the operations. -/

namespace Sys2Proof.Machine

/-! ### `andThen` -/

@[simp] theorem andThen_next (s : State) (f : State → Result) : andThen (.next s) f = f s := rfl
@[simp] theorem andThen_fault (r : Fault) (f : State → Result) : andThen (.fault r) f = .fault r := rfl
@[simp] theorem andThen_refused (r : Refusal) (f : State → Result) : andThen (.refused r) f = .refused r := rfl

/-- A sequence answers a next state exactly when both parts do. -/
theorem andThen_eq_next_iff {o : Result} {f : State → Result} {t : State} :
    andThen o f = .next t ↔ ∃ s, o = .next s ∧ f s = .next t := by
  cases o <;> simp [andThen]

/-! ### Frame buffer -/

/-- All that `writePixel` can answer. -/
theorem writePixel_cases (a : Lock) (i : Nat) (v : Pixel) (s : State) :
    (s.lock = a ∧ i < s.fb.length ∧ writePixel a i v s = .next { s with fb := s.fb.set i v }) ∨
    (s.lock ≠ a ∧ writePixel a i v s = .fault .lockNotOwned) ∨
    (s.lock = a ∧ s.fb.length ≤ i ∧ writePixel a i v s = .fault .pixelIndexOutside) := by
  unfold writePixel
  by_cases ha : s.lock = a
  · by_cases hi : i < s.fb.length
    · exact .inl ⟨ha, hi, by simp [ha, hi]⟩
    · exact .inr (.inr ⟨ha, by omega, by simp [ha, hi]⟩)
  · exact .inr (.inl ⟨ha, by simp [ha]⟩)

/-- All that `writeEveryPixel` can answer. -/
theorem writeEveryPixel_cases (a : Lock) (v : Pixel) (s : State) :
    (s.lock = a ∧ writeEveryPixel a v s = .next { s with fb := List.replicate s.cfg.ledCount v }) ∨
    (s.lock ≠ a ∧ writeEveryPixel a v s = .fault .lockNotOwned) := by
  unfold writeEveryPixel
  by_cases ha : s.lock = a
  · exact .inl ⟨ha, by simp [ha]⟩
  · exact .inr ⟨ha, by simp [ha]⟩

/-- The owner of the lock reads a stored pixel. -/
theorem readPixel_of_owner {a : Lock} {i : Nat} {s : State} {v : Pixel} (ha : s.lock = a) (hv : s.fb[i]? = some v) :
    readPixel a i s = .ok v := by
  simp [readPixel, ha, hv]

/-- A read that answers a pixel was made by the owner and answers the stored pixel. -/
theorem readPixel_eq_ok_iff {a : Lock} {i : Nat} {s : State} {v : Pixel} :
    readPixel a i s = .ok v ↔ s.lock = a ∧ s.fb[i]? = some v := by
  unfold readPixel
  split
  · simp_all
  · split <;> simp_all

/-! ### Lock -/

theorem releaseLock_of_owner {a : Lock} {s : State} (h : s.lock = a) : releaseLock a s = .next (setLock .free s) := by
  simp [releaseLock, h]

theorem releaseLock_of_other {a : Lock} {s : State} (h : s.lock ≠ a) : releaseLock a s = .fault .lockNotOwned := by
  simp [releaseLock, h]

/-- With the lock free, a command under the lock answers what its body does, with the lock free again and the latch empty. -/
theorem commandUnderLock_of_free {body : State → Result} {s t : State} (h : s.lock = .free)
    (hb : body (setLock (.prod s.port) s) = .next t) (ht : t.lock = .prod s.port) :
    commandUnderLock body s = .next (completeCommand (setLock .free t)) := by
  simp [commandUnderLock, h, hb, releaseLock, ht]

/-- With the lock taken, a command under the lock waits. -/
theorem commandUnderLock_of_taken {body : State → Result} {s : State} (h : s.lock ≠ .free) :
    commandUnderLock body s = .next s := by
  simp [commandUnderLock, h]

/-- A command under the lock whose body writes `FB` and nothing else: it waits, or it leaves `FB` written and the latch empty. -/
theorem commandUnderLock_next_cases {body : State → Result} {s t : State}
    (hbody : ∀ u v, body u = .next v → ∃ fb, v = { u with fb := fb })
    (h : commandUnderLock body s = .next t) :
    (s.lock ≠ .free ∧ t = s) ∨
    (s.lock = .free ∧ ∃ fb, body (setLock (.prod s.port) s) = .next { setLock (.prod s.port) s with fb := fb } ∧
      t = { s with fb := fb, cmd := s.cmd.set s.port none }) := by
  by_cases hf : s.lock = .free
  · refine .inr ⟨hf, ?_⟩
    simp only [commandUnderLock, hf, if_true, andThen_eq_next_iff] at h
    obtain ⟨u, hu, v, hv, rfl⟩ : ∃ u, body (setLock (.prod s.port) s) = .next u ∧
        ∃ v, releaseLock (.prod s.port) u = .next v ∧ completeCommand v = t := by
      obtain ⟨u, hu, v, hv, ht⟩ := h
      exact ⟨u, hu, v, hv, by simpa using ht⟩
    obtain ⟨fb, rfl⟩ := hbody _ _ hu
    refine ⟨fb, hu, ?_⟩
    simp only [releaseLock, setLock_lock, if_true] at hv
    cases hv
    cases s
    simp_all [completeCommand, setLatch, setLock]
  · rw [commandUnderLock_of_taken hf] at h
    exact .inl ⟨hf, by simpa using h.symm⟩

/-! ### Latches -/

theorem latch_setLatch {p : Nat} {s : State} (h : p < s.cmd.length) (v : Option CmdWord) : latch p (setLatch p v s) = v := by
  simp [latch, h]

theorem latch_setLatch_of_ne {p q : Nat} (h : q ≠ p) (v : Option CmdWord) (s : State) :
    latch q (setLatch p v s) = latch q s := by
  simp [latch, h.symm]

theorem latch_eq_some_iff {p : Nat} {s : State} {w : CmdWord} : latch p s = some w ↔ s.cmd[p]? = some (some w) := by
  simp [latch, Option.join_eq_some_iff]

theorem cmdReady_iff {p : Nat} {s : State} : cmdReady p s = true ↔ p < s.cmd.length ∧ latch p s = none := by
  unfold cmdReady latch
  by_cases h : p < s.cmd.length
  · simp [h]
  · simp [h]

/-! ### Payload and drawn contents -/

@[simp] theorem payload_length (s : State) : (payload s).length = s.cfg.payloadLen := by simp [payload]

@[simp] theorem fitPixels_length (n : Nat) (xs : List Pixel) : (fitPixels n xs).length = n := by simp [fitPixels]

/-- Fitting changes nothing in contents of the right length: every `FB_INIT` can be drawn (R211). -/
theorem fitPixels_of_length {n : Nat} {xs : List Pixel} (h : xs.length = n) : fitPixels n xs = xs := by
  simp [fitPixels, ← h]

end Sys2Proof.Machine
end

