-- ==== Sys2Proof/Laws/Step.lean ====
section
/-! SUPPORT. What a step can do: one case for each thing an agent can do when it answers a next state. -/

namespace Sys2Proof.Machine

/-- The sequencer's step, case by case (R151 to R160). -/
theorem sequencerStep_cases {ready fail : Bool} {s t : State} (h : sequencerStep ready fail s = .next t) :
    (s.phase = .idle ∧ 0 < s.timer ∧ t = { s with timer := s.timer - 1 }) ∨
    (s.phase = .idle ∧ s.timer = 0 ∧ t = { s with phase := .zerofill }) ∨
    (s.phase = .zerofill ∧ t = { s with
      pl := Memory.writeAll s.pl 0 (List.replicate s.cfg.payloadLen ZSYM), wo := s.cfg.preambleLen, phase := .acquire }) ∨
    (s.phase = .acquire ∧ s.lock ≠ .free ∧ t = s) ∨
    (s.phase = .acquire ∧ s.lock = .free ∧ t = { s with lock := .tx, px := 0, phase := .encode }) ∨
    (s.phase = .encode ∧ s.px < s.cfg.ledCount ∧ ∃ p pl wo, s.lock = .tx ∧ s.fb[s.px]? = some p ∧
      encPixel s.cfg p s.wo s.pl = .ok (pl, wo) ∧ t = { s with pl := pl, wo := wo, px := s.px + 1 }) ∨
    (s.phase = .encode ∧ s.cfg.ledCount ≤ s.px ∧ t = { s with phase := .release }) ∨
    (s.phase = .release ∧ s.lock = .tx ∧ t = { s with lock := .free, phase := .select }) ∨
    (s.phase = .select ∧ t = { s with csN := 0#1, trace := s.trace ++ [.select], rk := 0, phase := .write }) ∨
    (s.phase = .write ∧ ready = false ∧ s.rk ≠ s.cfg.payloadLen ∧ t = s) ∨
    (s.phase = .write ∧ (ready = true ∨ s.rk = s.cfg.payloadLen) ∧ s.cfg.busCanFail = true ∧ fail = true ∧
      t = { s with signals := s.signals ++ [.busWriteFailure s.rk], phase := .deselect }) ∨
    (s.phase = .write ∧ ready = true ∧ (s.cfg.busCanFail && fail) = false ∧ s.rk < s.cfg.payloadLen ∧
      t = { s with trace := s.trace ++ [.sym (Memory.read s.pl s.rk)], rk := s.rk + 1 }) ∨
    (s.phase = .write ∧ (ready = true ∨ s.rk = s.cfg.payloadLen) ∧ (s.cfg.busCanFail && fail) = false ∧
      s.cfg.payloadLen ≤ s.rk ∧ t = { s with phase := .deselect }) ∨
    (s.phase = .deselect ∧
      t = { s with csN := 1#1, trace := s.trace ++ [.deselect], timer := s.cfg.refreshInterval, phase := .idle }) := by
  unfold sequencerStep at h
  split at h
  case h_1 hp =>
    unfold phaseIdle at h
    split at h <;> cases h
    · exact .inl ⟨hp, by assumption, rfl⟩
    · exact .inr (.inl ⟨hp, by omega, rfl⟩)
  case h_2 hp => cases h; exact .inr (.inr (.inl ⟨hp, rfl⟩))
  case h_3 hp =>
    unfold phaseAcquire at h
    split at h <;> cases h
    · exact .inr (.inr (.inr (.inr (.inl ⟨hp, by assumption, rfl⟩))))
    · exact .inr (.inr (.inr (.inl ⟨hp, by assumption, rfl⟩)))
  case h_4 hp =>
    unfold phaseEncode at h
    split at h
    · next hlt =>
      unfold encodeOnePixel at h
      split at h
      · cases h
      · next p hr =>
        obtain ⟨hl, hf⟩ := readPixel_eq_ok_iff.1 hr
        split at h
        · cases h
        · next pl wo he =>
          cases h
          exact .inr (.inr (.inr (.inr (.inr (.inl ⟨hp, hlt, p, pl, wo, hl, hf, he, rfl⟩)))))
    · cases h
      exact .inr (.inr (.inr (.inr (.inr (.inr (.inl ⟨hp, by omega, rfl⟩))))))
  case h_5 hp =>
    obtain ⟨u, hu, ht⟩ := andThen_eq_next_iff.1 h
    cases ht
    unfold releaseLock at hu
    split at hu <;> cases hu
    exact .inr (.inr (.inr (.inr (.inr (.inr (.inr (.inl ⟨hp, by assumption, rfl⟩)))))))
  case h_6 hp =>
    cases h
    exact .inr (.inr (.inr (.inr (.inr (.inr (.inr (.inr (.inl ⟨hp, rfl⟩))))))))
  case h_7 hp =>
    iterate 9 apply Or.inr
    unfold phaseWrite at h
    split at h
    · next hw => cases h; exact .inl ⟨hp, hw.1, hw.2, rfl⟩
    · next hw =>
      have enabled : ready = true ∨ s.rk = s.cfg.payloadLen := by
        cases ready
        · exact .inr (by simpa using hw)
        · exact .inl rfl
      split at h
      · next hf =>
        cases h
        simp only [Bool.and_eq_true] at hf
        exact .inr (.inl ⟨hp, enabled, hf.1, hf.2, rfl⟩)
      · next hf =>
        have noFail : (s.cfg.busCanFail && fail) = false := by simpa using hf
        split at h <;> cases h
        · next hlt =>
          have hr : ready = true := by
            rcases enabled with e | e
            · exact e
            · omega
          exact .inr (.inr (.inl ⟨hp, hr, noFail, hlt, rfl⟩))
        · exact .inr (.inr (.inr (.inl ⟨hp, enabled, noFail, by omega, rfl⟩)))
  case h_8 hp =>
    iterate 13 apply Or.inr
    cases h
    exact ⟨hp, rfl⟩

/-- A command's execution, case by case (R131 to R134): it waits, it is rejected, it writes `FB`, or it is dropped. -/
theorem exec_cases {i : Instr} {s t : State} (h : exec i s = .next t) :
    (s.lock ≠ .free ∧ t = s) ∨
    (∃ index, t = { s with signals := s.signals ++ [.indexOutOfRange index], cmd := s.cmd.set s.port none }) ∨
    (s.lock = .free ∧ ∃ k v, k < s.fb.length ∧ t = { s with fb := s.fb.set k v, cmd := s.cmd.set s.port none }) ∨
    (s.lock = .free ∧ ∃ v, t = { s with fb := List.replicate s.cfg.ledCount v, cmd := s.cmd.set s.port none }) ∨
    t = { s with cmd := s.cmd.set s.port none } := by
  have pixel : ∀ k v u w, writePixel (.prod s.port) k v u = .next w → ∃ fb, w = { u with fb := fb } := by
    intro k v u w hw
    rcases writePixel_cases (.prod s.port) k v u with ⟨_, _, e⟩ | ⟨_, e⟩ | ⟨_, _, e⟩ <;> rw [e] at hw <;> cases hw
    exact ⟨_, rfl⟩
  have every : ∀ v u w, writeEveryPixel (.prod s.port) v u = .next w → ∃ fb, w = { u with fb := fb } := by
    intro v u w hw
    rcases writeEveryPixel_cases (.prod s.port) v u with ⟨_, e⟩ | ⟨_, e⟩ <;> rw [e] at hw <;> cases hw
    exact ⟨_, rfl⟩
  have all : ∀ v, commandUnderLock (writeEveryPixel (.prod s.port) v) s = .next t →
      (s.lock ≠ .free ∧ t = s) ∨
      (s.lock = .free ∧ ∃ v, t = { s with fb := List.replicate s.cfg.ledCount v, cmd := s.cmd.set s.port none }) := by
    intro v hv
    rcases commandUnderLock_next_cases (every v) hv with hw | ⟨hf, fb, hb, rfl⟩
    · exact .inl hw
    · refine .inr ⟨hf, v, ?_⟩
      rcases writeEveryPixel_cases (.prod s.port) v (setLock (.prod s.port) s) with ⟨_, e⟩ | ⟨_, e⟩ <;> rw [e] at hb
      · have hfb : List.replicate s.cfg.ledCount v = fb := congrArg State.fb (Host.Outcome.next.inj hb)
        rw [hfb]
      · cases hb
  have one : ∀ k v, commandUnderLock (writePixel (.prod s.port) k v) s = .next t →
      (s.lock ≠ .free ∧ t = s) ∨
      (s.lock = .free ∧ ∃ k v, k < s.fb.length ∧ t = { s with fb := s.fb.set k v, cmd := s.cmd.set s.port none }) := by
    intro k v hv
    rcases commandUnderLock_next_cases (pixel k v) hv with hw | ⟨hf, fb, hb, rfl⟩
    · exact .inl hw
    · rcases writePixel_cases (.prod s.port) k v (setLock (.prod s.port) s) with ⟨_, hk, e⟩ | ⟨_, e⟩ | ⟨_, _, e⟩ <;> rw [e] at hb
      · have hfb : s.fb.set k v = fb := congrArg State.fb (Host.Outcome.next.inj hb)
        exact .inr ⟨hf, k, v, hk, by rw [hfb]⟩
      · cases hb
      · cases hb
  cases i with
  | setpixel index color =>
    simp only [exec, execSetpixel] at h
    split at h
    · cases h
      exact .inr (.inl ⟨_, rfl⟩)
    · rcases one _ _ h with h | h
      · exact .inl h
      · exact .inr (.inr (.inl h))
  | setall color =>
    rcases all _ h with h | h
    · exact .inl h
    · exact .inr (.inr (.inr (.inl h)))
  | clear =>
    rcases all _ h with h | h
    · exact .inl h
    · exact .inr (.inr (.inr (.inl h)))
  | reserved00 => cases h; exact .inr (.inr (.inr (.inr rfl)))
  | reserved04 _ => cases h; exact .inr (.inr (.inr (.inr rfl)))
  | reserved08 _ => cases h; exact .inr (.inr (.inr (.inr rfl)))
  | reserved10 _ => cases h; exact .inr (.inr (.inr (.inr rfl)))
  | reserved20 _ => cases h; exact .inr (.inr (.inr (.inr rfl)))
  | reserved40 _ => cases h; exact .inr (.inr (.inr (.inr rfl)))
  | reserved80 _ => cases h; exact .inr (.inr (.inr (.inr rfl)))

/-- A step whose next choice is `c`, settled or free. -/
theorem step_of_nextChoice {s : State} {c : Choice} (h : nextChoice s = c) : step s = choiceStep c (consumeChoice s) := by
  rw [step, h]

/-- A step whose next choice is settled. -/
theorem step_of_sched {s : State} {c : Choice} {cs : List Choice} (h : s.sched = c :: cs) :
    step s = choiceStep c { s with sched := cs } := by
  simp [step, nextChoice, consumeChoice, h]

/-- What a step can be: a reset, an issue, an execute or a sequencer's step, each from the state whose choice is taken. -/
theorem step_next_cases {s t : State} (h : step s = .next t) :
    (∃ fb pl, nextChoice s = .rst fb pl ∧ t = applyReset fb pl (consumeChoice s)) ∨
    (∃ p w, nextChoice s = .issue p w ∧
      (cmdReady p s = true ∧ t = setLatch p (some w) (consumeChoice s) ∨ cmdReady p s = false ∧ t = consumeChoice s)) ∨
    (∃ p, nextChoice s = .execute p ∧
      (latch p s = none ∧ t = consumeChoice s ∨
        ∃ w, latch p s = some w ∧ exec (decode w) (selectPort p (consumeChoice s)) = .next t)) ∨
    (∃ ready fail, nextChoice s = .sequencer ready fail ∧ sequencerStep ready fail (consumeChoice s) = .next t) := by
  have hlatch : ∀ p, latch p (consumeChoice s) = latch p s := fun p => by simp [latch]
  have hready : ∀ p, cmdReady p (consumeChoice s) = cmdReady p s := fun p => by simp [cmdReady]
  unfold step at h
  cases hc : nextChoice s with
  | rst fb pl => rw [hc] at h; cases h; exact .inl ⟨fb, pl, rfl, rfl⟩
  | issue p w =>
    rw [hc] at h
    simp only [choiceStep, issueStep, hready] at h
    split at h
    · next hr => cases h; exact .inr (.inl ⟨p, w, rfl, .inl ⟨hr, rfl⟩⟩)
    · next hr => cases h; exact .inr (.inl ⟨p, w, rfl, .inr ⟨Bool.eq_false_iff.2 hr, rfl⟩⟩)
  | execute p =>
    rw [hc] at h
    simp only [choiceStep, executeStep, hlatch] at h
    split at h
    · next w hw => exact .inr (.inr (.inl ⟨p, rfl, .inr ⟨w, hw, h⟩⟩))
    · next hw => cases h; exact .inr (.inr (.inl ⟨p, rfl, .inl ⟨hw, rfl⟩⟩))
  | sequencer ready fail =>
    rw [hc] at h
    exact .inr (.inr (.inr ⟨ready, fail, rfl, h⟩))

/-! ### Runs -/

@[simp] theorem core_run_zero (s : State) : Sys2Proof.core.run 0 s = .next s := rfl

/-- A run of one step more. -/
theorem core_run_succ {n : Nat} {s t : State} (h : step s = .next t) :
    Sys2Proof.core.run (n + 1) s = Sys2Proof.core.run n t := by
  have hs : Sys2Proof.core.step s = .next t := h
  simp [Host.Core.run, hs]

/-- Runs compose. -/
theorem core_run_add {n m : Nat} {s t : State} (h : Sys2Proof.core.run n s = .next t) :
    Sys2Proof.core.run (n + m) s = Sys2Proof.core.run m t := by
  induction n generalizing s with
  | zero =>
    obtain rfl : s = t := Host.Outcome.next.inj h
    rw [Nat.zero_add]
  | succ n ih =>
    cases hs : step s with
    | next u =>
      rw [core_run_succ hs] at h
      rw [Nat.succ_add, core_run_succ hs, ih h]
    | fault r =>
      have hs' : Sys2Proof.core.step s = .fault r := hs
      simp [Host.Core.run, hs'] at h
    | refused r =>
      have hs' : Sys2Proof.core.step s = .refused r := hs
      simp [Host.Core.run, hs'] at h

end Sys2Proof.Machine
end

