-- ==== Sys2Proof/Laws/History.lean ====
section
/-! SUPPORT. What a step does to the history of a run, and the frames of a history. -/

namespace Sys2Proof.Safety

open Sys2Proof.Machine

/-- A step of a history is a step of its state, with both records brought up to date. -/
theorem Hist.next_eq_some_iff {h h' : Hist} :
    h.next = some h' ↔ ∃ t, step h.st = .next t ∧ h' = ⟨t, snapsAfter h.st t h.snaps, endsAfter h.st t h.ends⟩ := by
  unfold Hist.next
  cases step h.st with
  | next t => simp [eq_comm]
  | fault r => simp
  | refused r => simp

theorem snapsAfter_of_reset {s t : State} {snaps : List (List Pixel)} (h : isReset (nextChoice s) = true) :
    snapsAfter s t snaps = [] := by simp [snapsAfter, h]

theorem endsAfter_of_reset {s t : State} {ends : List (Option Nat)} (h : isReset (nextChoice s) = true) :
    endsAfter s t ends = [] := by simp [endsAfter, h]

/-- A step that does not take the lock for the sequencer takes no snapshot. -/
theorem snapsAfter_of_lock_eq {s t : State} {snaps : List (List Pixel)} (hr : isReset (nextChoice s) = false) (h : t.lock = s.lock) :
    snapsAfter s t snaps = snaps := by
  rw [snapsAfter, hr, h, if_neg Bool.false_ne_true, if_neg fun a => a.1 a.2]

/-- A step that does not move the phase ends no `WRITE`. -/
theorem endsAfter_of_phase_eq {s t : State} {ends : List (Option Nat)} (hr : isReset (nextChoice s) = false) (h : t.phase = s.phase) :
    endsAfter s t ends = ends := by
  rw [endsAfter, hr, h, if_neg Bool.false_ne_true, if_neg]
  rintro ⟨hw, hd⟩
  rw [hw] at hd
  cases hd

/-- The failure that a step signalled is the one it appended. -/
theorem failureOf_of_append {s t : State} {k : Nat} (h : t.signals = s.signals ++ [.busWriteFailure k]) : failureOf s t = some k := by
  simp [failureOf, h, failedAt]

theorem failureOf_of_eq {s t : State} (h : t.signals = s.signals) : failureOf s t = none := by
  simp [failureOf, h]

theorem frameOf_prefix (c : Cfg) (snap : List Pixel) (cut : Option Nat) : frameOf c snap cut <+: compose c snap := by
  cases cut with
  | none => exact List.prefix_refl _
  | some k => exact List.take_prefix _ _

/-- Each ended frame is the frame of its own cycle's snapshot and end. -/
theorem Hist.frames_getElem? {h : Hist} {j : Nat} {ys : List Symbol} (e : h.frames[j]? = some ys) :
    ∃ snap cut, h.snaps[j]? = some snap ∧ h.ends[j]? = some cut ∧ ys = frameOf h.st.cfg snap cut := by
  rw [Hist.frames, List.getElem?_zipWith] at e
  cases h1 : h.snaps[j]? <;> cases h2 : h.ends[j]? <;> simp [h1, h2] at e
  exact ⟨_, _, rfl, rfl, e.symm⟩

end Sys2Proof.Safety
end

