-- ==== Sys2Proof/Laws/PerInstr.lean ====
section
/-! SUPPORT. One lemma per command, by family. `EncodesInRow`: a well-formed command encodes into its own row of the opcode table (R93). -/

namespace Sys2Proof.Laws.EncodesInRow

/-- The command's word is covered by the command's row, and that row is in the table. -/
def Statement (i : Instr) : Prop :=
  i.row ∈ opcodeTable ∧ (i.WellFormed = true → i.row.covers (encode i) = true)

/-- A packed word lies in the row whose mask and match are those of its opcode. -/
theorem covers_packWord (op mask bits : BitVec 8) (index : BitVec 16) (c : Pixel) (h : op &&& mask = bits) :
    Row.covers ⟨bits ++ 0#40, mask ++ 0#40⟩ (packWord op index c) = true := by
  rw [Row.covers, packWord_and_opMask, h]
  exact beq_self_eq_true _

theorem setpixel (index : BitVec 16) (color : Pixel) : Statement (.setpixel index color) :=
  ⟨row_mem_opcodeTable _, fun _ => covers_packWord 0x01#8 0xFF#8 0x01#8 index color (by decide)⟩

theorem setall (color : Pixel) : Statement (.setall color) :=
  ⟨row_mem_opcodeTable _, fun _ => covers_packWord 0x02#8 0xFF#8 0x02#8 0#16 color (by decide)⟩

theorem clear : Statement .clear := ⟨row_mem_opcodeTable _, fun _ => by decide⟩

theorem reserved00 : Statement .reserved00 := ⟨row_mem_opcodeTable _, fun _ => by decide⟩

theorem reserved04 (op : BitVec 8) : Statement (.reserved04 op) :=
  ⟨row_mem_opcodeTable _, fun h => covers_packWord op 0xFC#8 0x04#8 0#16 Pixel.black (by revert h; revert op; decide)⟩

theorem reserved08 (op : BitVec 8) : Statement (.reserved08 op) :=
  ⟨row_mem_opcodeTable _, fun h => covers_packWord op 0xF8#8 0x08#8 0#16 Pixel.black (by revert h; revert op; decide)⟩

theorem reserved10 (op : BitVec 8) : Statement (.reserved10 op) :=
  ⟨row_mem_opcodeTable _, fun h => covers_packWord op 0xF0#8 0x10#8 0#16 Pixel.black (by revert h; revert op; decide)⟩

theorem reserved20 (op : BitVec 8) : Statement (.reserved20 op) :=
  ⟨row_mem_opcodeTable _, fun h => covers_packWord op 0xE0#8 0x20#8 0#16 Pixel.black (by revert h; revert op; decide)⟩

theorem reserved40 (op : BitVec 8) : Statement (.reserved40 op) :=
  ⟨row_mem_opcodeTable _, fun h => covers_packWord op 0xC0#8 0x40#8 0#16 Pixel.black (by revert h; revert op; decide)⟩

theorem reserved80 (op : BitVec 8) : Statement (.reserved80 op) :=
  ⟨row_mem_opcodeTable _, fun h => covers_packWord op 0x80#8 0x80#8 0#16 Pixel.black (by revert h; revert op; decide)⟩

end Sys2Proof.Laws.EncodesInRow
end

