-- ==== Sys2Proof/Machine/Assembly.lean ====
section
/-! DEFINITION. The spec's assembly spelling of the commands and its two directives, and what a program of such lines does (30_encoding.md
R97, 95_test_vectors.md part 3). A line is a list of characters. -/

namespace Sys2Proof.Machine

/-- A line of a program (R97). The directives are no commands and have no encoding. -/
inductive Line where
  /-- Nothing but white space and a comment. -/
  | blank
  /-- A command presented on a port; without a port the line means `p0`, the one producer of the test programs
  (DESIGN CHOICE, log 20). -/
  | command (port : Nat) (i : Instr)
  /-- `FRAME`: the sequencer runs one whole cycle with no command inside it. -/
  | frame
deriving DecidableEq, Repr

/-! ### Reading a line -/

/-- The rest of the text after white space. -/
def skipSpaces (cs : List Char) : List Char := cs.dropWhile fun c => c == ' ' || c == '\t'

/-- The text before a comment, `; text` (R97). -/
def dropComment (cs : List Char) : List Char := cs.takeWhile fun c => c != ';'

/-- The value of a digit in the given base. -/
def digitValue (base : Nat) (c : Char) : Option Nat :=
  let n := c.toNat
  let v :=
    if 48 ≤ n ∧ n ≤ 57 then n - 48
    else if 65 ≤ n ∧ n ≤ 70 then n - 55
    else if 97 ≤ n ∧ n ≤ 102 then n - 87
    else 16
  if v < base then some v else none

/-- The rest of a number whose digits so far are worth `acc`. -/
def numberFrom (base acc : Nat) (cs : List Char) : Nat × List Char :=
  match cs with
  | [] => (acc, [])
  | c :: rest =>
    match digitValue base c with
    | some v => numberFrom base (base * acc + v) rest
    | none => (acc, c :: rest)

/-- A number of at least one digit in the given base. -/
def numberIn (base : Nat) (cs : List Char) : Option (Nat × List Char) :=
  match cs with
  | [] => none
  | c :: rest => (digitValue base c).map fun v => numberFrom base v rest

/-- A number "in decimal or `0x` hexadecimal" (R97). -/
def literal (cs : List Char) : Option (Nat × List Char) :=
  match cs with
  | '0' :: 'x' :: rest => numberIn 16 rest
  | rest => numberIn 10 rest

/-- An operand: a number with white space around it. -/
def number (cs : List Char) : Option (Nat × List Char) :=
  (literal (skipSpaces cs)).map fun x => (x.1, skipSpaces x.2)

/-- Numbers separated by commas, `n` of them, and then the end of the line. -/
def operands (n : Nat) (cs : List Char) : Option (List Nat) :=
  match n with
  | 0 => if skipSpaces cs = [] then some [] else none
  | n + 1 =>
    match number cs with
    | none => none
    | some (v, rest) =>
      match n, rest with
      | 0, rest => (operands 0 rest).map fun vs => v :: vs
      | n + 1, ',' :: rest => (operands (n + 1) rest).map fun vs => v :: vs
      | _ + 1, _ => none

/-- A colour from three numbers that are channel values, in the order of the field list: green, red, blue (R24, R97). -/
def colorOf (g r b : Nat) : Option Pixel :=
  if g < 256 ∧ r < 256 ∧ b < 256 then some ⟨BitVec.ofNat 8 g, BitVec.ofNat 8 r, BitVec.ofNat 8 b⟩ else none

/-- The command of a mnemonic and its operands. A reserved word has no assembly spelling (R97). -/
def commandOf (mnemonic : List Char) (rest : List Char) : Option Instr :=
  if mnemonic = ['S', 'E', 'T', 'P', 'I', 'X', 'E', 'L'] then
    match operands 4 rest with
    | some [index, g, r, b] =>
      if index < 65536 then (colorOf g r b).map fun c => .setpixel (BitVec.ofNat 16 index) c else none
    | _ => none
  else if mnemonic = ['S', 'E', 'T', 'A', 'L', 'L'] then
    match operands 3 rest with
    | some [g, r, b] => (colorOf g r b).map .setall
    | _ => none
  else if mnemonic = ['C', 'L', 'E', 'A', 'R'] then
    match operands 0 rest with
    | some [] => some .clear
    | _ => none
  else none

/-- A line without a port: a directive or a command, here for port `port`. -/
def lineFor (port : Nat) (cs : List Char) : Option Line :=
  let text := skipSpaces cs
  let word := text.takeWhile Char.isAlpha
  (commandOf word (text.drop word.length)).map (.command port)

/-- Reading one line (R97): `[p<port>:] <command>`, `FRAME`, or nothing; a comment is dropped. `none` is no line of the spelling.
R97 does not say whether the port is one of its numbers that may be hexadecimal; here it may (DESIGN CHOICE, log 20). -/
def readLine (cs : List Char) : Option Line :=
  match skipSpaces (dropComment cs) with
  | [] => some .blank
  | 'p' :: rest =>
    match literal rest with
    | some (port, ':' :: rest') => lineFor port rest'
    | _ => none
  | 'F' :: 'R' :: 'A' :: 'M' :: 'E' :: rest => if skipSpaces rest = [] then some .frame else none
  | rest => lineFor 0 rest

/-! ### What a program does -/

/-- Make the given choices, one step each. -/
def runChoices (cs : List Choice) (s : State) : Result :=
  match cs with
  | [] => .next s
  | c :: rest => andThen (choiceStep c s) (runChoices rest)

/-- The choices of the directive `FRAME`: the sequencer's dwell in `IDLE`, then one whole cycle, `ZEROFILL` to `DESELECT`, the bus ready and no
failure: one step each for `ZEROFILL`, `ACQUIRE`, `RELEASE`, `SELECT` and `DESELECT`, `N + 1` for `ENCODE` and `L + 1` for `WRITE`. From `IDLE` and
`ZEROFILL` this is the cycle that R97 means. R97 does not say what `FRAME` means while a cycle is under way: the sequencer then takes the same number
of steps from where it stands (DESIGN CHOICE, log 20). -/
def frameChoices (s : State) : List Choice :=
  let dwell := if s.phase = .idle then s.timer + 1 else 0
  List.replicate (dwell + s.cfg.ledCount + s.cfg.payloadLen + 7) (.sequencer true false)

/-- What a line does: a command is presented on its port and then executed (R130); `FRAME` runs one cycle.
R97 does not say how long a line waits; here each command line is exactly one issue and one execute choice (DESIGN CHOICE, log 20). So a command that
waits for the lock is still pending when its line ends. A line whose port is busy with such a command has its own issue choice used up (log 2): its
command is lost, and its execute choice runs the older one. On a port that does not exist both choices are used up. -/
def runLine (l : Line) (s : State) : Result :=
  match l with
  | .blank => .next s
  | .command port i => runChoices [.issue port (encode i), .execute port] s
  | .frame => runChoices (frameChoices s) s

/-- What a program does: its lines, one after another. -/
def runProgram (ls : List Line) (s : State) : Result :=
  match ls with
  | [] => .next s
  | l :: rest => andThen (runLine l s) (runProgram rest)

end Sys2Proof.Machine
end

