-- ==== Sys2Proof/Tests/Slice0.lean ====
section
/-! SUPPORT. Tests of the model against the vectors of 95_test_vectors.md and 30_encoding.md R99, and for every statement with premises concrete
states and operands that meet them all. Vector names (K, M, E, X, Z, P) are the spec's. -/

namespace Sys2Proof.Tests

open Sys2Proof.Machine Sys2Proof.Safety

/-! ### States -/

/-- What a step answers, as data. -/
def nextOf (o : Result) : Option State :=
  match o with
  | .next s => some s
  | .fault _ => none
  | .refused _ => none

/-- CFG-F (95_test_vectors.md section 0) with a bus that can fail: N = 1, P = 0, S = 1, L = 24; T = 2, two producers. -/
def cfgF : Cfg :=
  ⟨1, 1, 0xC0#8, 0xF8#8, 0, 2, 0, 2, true, .msbFirst⟩

/-- N = 3, as in section 2.3. -/
def cfgM : Cfg := { cfgF with ledCount := 3 }

/-- The pixel of vector E13. -/
def pxE : Pixel := ⟨0x12#8, 0x34#8, 0x56#8⟩

/-- The 24 symbols of vector E13. -/
def symsE : List Symbol :=
  [0xC0#8, 0xC0#8, 0xC0#8, 0xF8#8, 0xC0#8, 0xC0#8, 0xF8#8, 0xC0#8,
   0xC0#8, 0xC0#8, 0xF8#8, 0xF8#8, 0xC0#8, 0xF8#8, 0xC0#8, 0xC0#8,
   0xC0#8, 0xF8#8, 0xC0#8, 0xF8#8, 0xC0#8, 0xF8#8, 0xF8#8, 0xC0#8]

/-- The payload that holds them. -/
def plE : Memory := (List.range 24).zip symsE

/-- One state for each phase, with one pixel and the payload its invariant asks for. -/
def atIdle : State := State.resetWith cfgF [pxE] []

def atZerofill : State := { atIdle with phase := .zerofill, pl := [(3, 0x77#8)] }

def atAcquire : State := { atIdle with phase := .acquire }

def atEncode : State := { atIdle with phase := .encode, lock := .tx }

def atEncodeEnd : State := { atIdle with phase := .encode, lock := .tx, px := 1, wo := 24, pl := plE }

def atRelease : State := { atEncodeEnd with phase := .release }

def atSelect : State := { atIdle with phase := .select, px := 1, wo := 24, pl := plE }

/-- In `WRITE` with ten symbols out, as in vector X2. -/
def atWrite : State :=
  { atSelect with phase := .write, csN := 0#1, rk := 10, trace := openFrame (symsE.take 10) }

/-- In `WRITE` with every symbol out, as in vector X4. -/
def atWriteEnd : State := { atWrite with rk := 24, trace := openFrame symsE }

def atDeselect : State := { atWriteEnd with phase := .deselect }

/-- The start state of section 2.3. -/
def stM : State := State.resetWith cfgM [⟨1#8, 1#8, 1#8⟩, ⟨2#8, 2#8, 2#8⟩, ⟨3#8, 3#8, 3#8⟩] []

/-- The same with the sequencer in `ENCODE`. -/
def stMTx : State := { stM with phase := .encode, lock := .tx }

/-- The frame buffer, the lock and the events of what a step answers: the columns of the table of section 2.3. -/
def observed (o : Result) : Option (List Pixel × Lock × List Signal) :=
  (nextOf o).map fun s => (s.fb, s.lock, s.signals)

/-- The state with one pending word at port `p`. -/
def pending (p : Nat) (w : CmdWord) (s : State) : State := { s with cmd := s.cmd.set p (some w) }

/-- The state with one settled choice. -/
def choosing (c : Choice) (s : State) : State := { s with sched := [c] }

/-! ### WellFormed: every check refuses an opcode outside its row (30_encoding.md R93, R94) -/

theorem test_wf_refuses_reserved04 :
    (Instr.reserved04 0x03#8).WellFormed = false ∧ (Instr.reserved04 0x08#8).WellFormed = false := by decide

theorem test_wf_refuses_reserved08 :
    (Instr.reserved08 0x07#8).WellFormed = false ∧ (Instr.reserved08 0x10#8).WellFormed = false := by decide

theorem test_wf_refuses_reserved10 :
    (Instr.reserved10 0x0F#8).WellFormed = false ∧ (Instr.reserved10 0x20#8).WellFormed = false := by decide

theorem test_wf_refuses_reserved20 :
    (Instr.reserved20 0x1F#8).WellFormed = false ∧ (Instr.reserved20 0x40#8).WellFormed = false := by decide

theorem test_wf_refuses_reserved40 :
    (Instr.reserved40 0x3F#8).WellFormed = false ∧ (Instr.reserved40 0x80#8).WellFormed = false := by decide

theorem test_wf_refuses_reserved80 : (Instr.reserved80 0x7F#8).WellFormed = false := by decide

/-! ### Decoding: words of the spec's tables (K1 to K11, R99), bit by bit where the spec gives the fields (R90) -/

/-- K2, with the fields written out: op 0x01, index 0, g 0x80, r 0x01, b 0xFF. -/
theorem test_decode_setpixel :
    decode 0b000000010000000000000000100000000000000111111111#48 = .setpixel 0x0000#16 ⟨0x80#8, 0x01#8, 0xFF#8⟩ := by decide

/-- K5, with the fields written out: op 0x02, index 0, g 0x0F, r 0xF0, b 0xAA. -/
theorem test_decode_setall :
    decode 0b000000100000000000000000000011111111000010101010#48 = .setall ⟨0x0F#8, 0xF0#8, 0xAA#8⟩ := by decide

/-- K8. -/
theorem test_decode_clear : decode 0x03FFFFFFFFFF#48 = .clear := by decide

/-- K9. -/
theorem test_decode_reserved00 : decode 0x000000000000#48 = .reserved00 := by decide

/-- K10. -/
theorem test_decode_reserved04 : decode 0x04123456789A#48 = .reserved04 0x04#8 := by decide

/-- The first and last opcode of the row with match 0x08. -/
theorem test_decode_reserved08 :
    decode 0x080000000000#48 = .reserved08 0x08#8 ∧ decode 0x0F0000000000#48 = .reserved08 0x0F#8 := by decide

theorem test_decode_reserved10 :
    decode 0x100000000000#48 = .reserved10 0x10#8 ∧ decode 0x1F0000000000#48 = .reserved10 0x1F#8 := by decide

theorem test_decode_reserved20 :
    decode 0x200000000000#48 = .reserved20 0x20#8 ∧ decode 0x3F0000000000#48 = .reserved20 0x3F#8 := by decide

theorem test_decode_reserved40 :
    decode 0x400000000000#48 = .reserved40 0x40#8 ∧ decode 0x7F0000000000#48 = .reserved40 0x7F#8 := by decide

/-- K11, and the first opcode of the row. -/
theorem test_decode_reserved80 :
    decode 0x800000000000#48 = .reserved80 0x80#8 ∧ decode 0xFF0000000000#48 = .reserved80 0xFF#8 := by decide

/-- A command is one whole 48-bit word (R90): more bits, or a bit above the width given, are refused by name. -/
theorem test_decode_refuses :
    decodeBits 49 0 = .error (.widerThanOneWord 49) ∧ decodeBits 48 (2 ^ 48) = .error (.bitAboveWidth 48 (2 ^ 48)) ∧
    decodeTableWord 49 0 = none := by decide

/-- A line of the spec's assembly (R97) with a port, a hexadecimal number and a comment; the two directives; an index out of its field. -/
theorem test_read_lines :
    readLine "p1: SETPIXEL 0, 0x80, 1, 0xFF ; text".toList =
      some (.command 1 (.setpixel 0x0000#16 ⟨0x80#8, 0x01#8, 0xFF#8⟩)) ∧
    readLine "p0x1: CLEAR".toList = some (.command 1 .clear) ∧
    readLine "FRAME".toList = some .frame ∧ readLine "; text".toList = some .blank ∧
    readLine "SETPIXEL 65536, 0, 0, 0".toList = none := by decide

/-! ### Commands: vectors M1 to M8, and a word executed as the first step after reset -/

theorem test_M1 :
    observed (exec (.setpixel 1#16 ⟨9#8, 8#8, 7#8⟩) stM) =
      some ([⟨1#8, 1#8, 1#8⟩, ⟨9#8, 8#8, 7#8⟩, ⟨3#8, 3#8, 3#8⟩], .free, []) := by decide

/-- M3 with the lock free, and with the lock taken (section 2.3, last paragraph). -/
theorem test_M3 :
    observed (exec (.setpixel 3#16 ⟨9#8, 8#8, 7#8⟩) stM) = some (stM.fb, .free, [.indexOutOfRange 3]) ∧
    observed (exec (.setpixel 3#16 ⟨9#8, 8#8, 7#8⟩) stMTx) = some (stM.fb, .tx, [.indexOutOfRange 3]) := by decide

theorem test_M5 :
    observed (exec (.setall ⟨9#8, 8#8, 7#8⟩) stM) =
      some ([⟨9#8, 8#8, 7#8⟩, ⟨9#8, 8#8, 7#8⟩, ⟨9#8, 8#8, 7#8⟩], .free, []) := by decide

/-- M5 while the sequencer owns the lock: not enabled, it stays pending. -/
theorem test_M5_waits :
    (nextOf (exec (.setall ⟨9#8, 8#8, 7#8⟩) (pending 0 0x020000090807#48 stMTx))).map (fun s => (s.fb, s.cmd)) =
      some (stM.fb, [some 0x020000090807#48, none]) := by decide

theorem test_M6 :
    observed (exec .clear stM) = some ([⟨0#8, 0#8, 0#8⟩, ⟨0#8, 0#8, 0#8⟩, ⟨0#8, 0#8, 0#8⟩], .free, []) := by decide

/-- M7, which needs no lock: the latch is left, nothing else changes. -/
theorem test_M7 :
    nextOf (exec (.reserved04 0x04#8) (pending 0 0x04123456789A#48 stMTx)) = some stMTx := by decide

theorem test_reserved00_is_a_no_operation :
    nextOf (exec .reserved00 (pending 0 0x000000000000#48 stM)) = some stM := by decide

theorem test_reserved08_is_a_no_operation :
    nextOf (exec (.reserved08 0x08#8) (pending 0 0x080000000000#48 stM)) = some stM := by decide

theorem test_reserved10_is_a_no_operation :
    nextOf (exec (.reserved10 0x10#8) (pending 0 0x100000000000#48 stM)) = some stM := by decide

theorem test_reserved20_is_a_no_operation :
    nextOf (exec (.reserved20 0x20#8) (pending 0 0x200000000000#48 stM)) = some stM := by decide

theorem test_reserved40_is_a_no_operation :
    nextOf (exec (.reserved40 0x40#8) (pending 0 0x400000000000#48 stM)) = some stM := by decide

/-- K11. -/
theorem test_reserved80_is_a_no_operation :
    nextOf (exec (.reserved80 0xFF#8) (pending 0 0xFF0000000000#48 stM)) = some stM := by decide

/-- Program P1, line 2, as the first step after reset: the placed word is executed. -/
theorem test_first_step_runs_the_placed_word :
    (nextOf (step (State.reset.withFetchWord 48 0x0100008001FF))).map (fun s => (s.fb, s.cmd, s.sched)) =
      some ([⟨0x80#8, 0x01#8, 0xFF#8⟩, ⟨0x44#8, 0x55#8, 0x66#8⟩], [none], []) := by decide

/-! ### Sequencer, errors, reset -/

/-- X2: a failure drawn at `rk = 10`. -/
theorem test_X2 :
    (nextOf (step (choosing (.sequencer true true) atWrite))).map (fun s => (s.phase, s.signals, s.fb, s.lock)) =
      some (.deselect, [.busWriteFailure 10], [pxE], .free) := by decide

/-- X5: with a bus that cannot fail the symbol goes out. -/
theorem test_X5 :
    (nextOf (step (choosing (.sequencer true true) { atWrite with cfg := { cfgF with busCanFail := false } }))).map
      (fun s => (s.rk, s.signals)) = some (11, []) := by decide

/-- The step from `IDLE` with `timer = 0` (Z1), and from `DESELECT` (section 2.4, step 64). -/
theorem test_idle_and_deselect :
    (nextOf (step (choosing (.sequencer false false) atIdle))).map (·.phase) = some .zerofill ∧
    (nextOf (step (choosing (.sequencer false false) atDeselect))).map (fun s => (s.phase, s.csN, s.timer)) =
      some (.idle, 1#1, 2) := by decide

/-- One pixel of `ENCODE` writes the symbols of E13 and moves `wo` to 24. -/
theorem test_encode_one_pixel :
    (nextOf (step (choosing (.sequencer false false) atEncode))).map (fun s => (payload s, s.wo, s.px)) =
      some (symsE, 24, 1) := by decide

/-- Z2 and Z3: reset while a frame is in flight and a command pends. -/
theorem test_Z2 :
    let after := nextOf (step (choosing (.rst [pxE] []) (pending 0 0x030000000000#48 atWrite)))
    after.map (fun s => (s.phase, s.csN, s.lock)) = some (.idle, 1#1, .free) ∧
    after.map (fun s => (s.cmd, s.trace)) = some ([none, none], []) := by decide

/-! ### Encoder -/

/-- E5, at offset 0 of CFG-F. -/
theorem test_E5 :
    encByte cfgF 0xA5#8 0 [] =
      .ok ((List.range 8).zip [0xF8#8, 0xC0#8, 0xF8#8, 0xC0#8, 0xC0#8, 0xF8#8, 0xC0#8, 0xF8#8], 8) := by decide

/-- E10: two symbols a bit. -/
theorem test_E10 :
    channelSymbols { cfgF with symbolsPerBit := 2 } 0x01#8 = List.replicate 14 0xC0#8 ++ [0xF8#8, 0xF8#8] := by decide

/-- E14. -/
theorem test_E14 :
    decByte { cfgF with symbolsPerBit := 2 }
      [0xF8#8, 0xF8#8, 0xC0#8, 0xC0#8, 0xF8#8, 0xF8#8, 0xC0#8, 0xC0#8, 0xC0#8, 0xC0#8, 0xF8#8, 0xF8#8, 0xC0#8, 0xC0#8,
       0xF8#8, 0xF8#8] = some 0xA5#8 := by decide

/-- The precondition corner of section 2.1: in CFG-B offset 44 is the last legal one. -/
theorem test_encbyte_corner :
    encByte State.resetCfg 0x00#8 45 [] = .error (.encoderOutsidePayload 45) ∧
    (encByte State.resetCfg 0x00#8 44 []).isOk = true := by decide

/-! ### Witnesses: the invariant in every phase -/

/-- The invariant of a state whose only frame is the one in progress, from checks that can be decided; `snap` is its snapshot. -/
theorem inv_of_checks (s : State) (snap : List Pixel)
    (h : s.cfg.wf ∧ s.fb.length = s.cfg.ledCount ∧ s.cmd.length = s.cfg.numProducers ∧ Memory.wf s.pl ∧
      (∀ x ∈ s.pl, x.1 < s.cfg.payloadLen) ∧ s.px ≤ s.cfg.ledCount ∧ s.wo ≤ s.cfg.payloadLen ∧ s.rk ≤ s.cfg.payloadLen ∧
      s.timer ≤ s.cfg.refreshInterval)
    (hl : (s.lock = .tx ↔ inCriticalSection s.phase = true) ∧ (s.lock = .tx ∨ s.lock = .free) ∧
      (s.csN = 0#1 ↔ selected s.phase = true))
    (ha : s.phase = .acquire → s.wo = s.cfg.preambleLen ∧ payload s = List.replicate s.cfg.payloadLen ZSYM)
    (he : s.phase = .encode → s.wo = s.cfg.preambleLen + s.cfg.pixelLen * s.px ∧
      payload s = (compose s.cfg s.fb).take s.wo ++ List.replicate (s.cfg.payloadLen - s.wo) ZSYM)
    (hr : s.phase = .release → payload s = compose s.cfg s.fb)
    (ht : transmitting s.phase = true → snap.length = s.cfg.ledCount ∧ payload s = compose s.cfg snap)
    (hf : s.trace = if selected s.phase then openFrame ((payload s).take s.rk) else []) : Inv s where
  cfgWf := h.1
  fbLength := h.2.1
  cmdLength := h.2.2.1
  plWf := h.2.2.2.1
  plInside := h.2.2.2.2.1
  pxBound := h.2.2.2.2.2.1
  woBound := h.2.2.2.2.2.2.1
  rkBound := h.2.2.2.2.2.2.2.1
  timerBound := h.2.2.2.2.2.2.2.2
  lockTx := hl.1
  lockNotProd p hp := by
    rcases hl.2.1 with h' | h' <;> rw [h'] at hp <;> cases hp
  csLow := hl.2.2
  atAcquire := ha
  atEncode := he
  atRelease := hr
  atTransmit hx := ⟨snap, ht hx⟩
  traceForm := ⟨[], hf⟩

theorem test_inv_atIdle : Inv atIdle :=
  inv_of_checks _ [pxE] (by decide) (by decide) (by decide) (by decide) (by decide) (by decide) (by decide)

theorem test_inv_atZerofill : Inv atZerofill :=
  inv_of_checks _ [pxE] (by decide) (by decide) (by decide) (by decide) (by decide) (by decide) (by decide)

theorem test_inv_atAcquire : Inv atAcquire :=
  inv_of_checks _ [pxE] (by decide) (by decide) (by decide) (by decide) (by decide) (by decide) (by decide)

theorem test_inv_atEncode : Inv atEncode :=
  inv_of_checks _ [pxE] (by decide) (by decide) (by decide) (by decide) (by decide) (by decide) (by decide)

theorem test_inv_atEncodeEnd : Inv atEncodeEnd :=
  inv_of_checks _ [pxE] (by decide) (by decide) (by decide) (by decide) (by decide) (by decide) (by decide)

theorem test_inv_atRelease : Inv atRelease :=
  inv_of_checks _ [pxE] (by decide) (by decide) (by decide) (by decide) (by decide) (by decide) (by decide)

theorem test_inv_atSelect : Inv atSelect :=
  inv_of_checks _ [pxE] (by decide) (by decide) (by decide) (by decide) (by decide) (by decide) (by decide)

theorem test_inv_atWrite : Inv atWrite :=
  inv_of_checks _ [pxE] (by decide) (by decide) (by decide) (by decide) (by decide) (by decide) (by decide)

theorem test_inv_atWriteEnd : Inv atWriteEnd :=
  inv_of_checks _ [pxE] (by decide) (by decide) (by decide) (by decide) (by decide) (by decide) (by decide)

theorem test_inv_atDeselect : Inv atDeselect :=
  inv_of_checks _ [pxE] (by decide) (by decide) (by decide) (by decide) (by decide) (by decide) (by decide)

/-- The invariant does not read the schedule, so the states above meet it with any schedule. -/
theorem test_inv_any_schedule (s : State) (cs : List Choice) (h : Inv s) : Inv { s with sched := cs } where
  cfgWf := h.cfgWf
  fbLength := h.fbLength
  cmdLength := h.cmdLength
  plWf := h.plWf
  plInside := h.plInside
  pxBound := h.pxBound
  woBound := h.woBound
  rkBound := h.rkBound
  timerBound := h.timerBound
  lockTx := h.lockTx
  lockNotProd := h.lockNotProd
  csLow := h.csLow
  atAcquire := h.atAcquire
  atEncode := h.atEncode
  atRelease := h.atRelease
  atTransmit := h.atTransmit
  traceForm := h.traceForm

/-! ### Witnesses: the premises of every statement, clause by clause -/

/-- A step that answers a next state with property `P`, from a check. -/
theorem next_of_check {o : Result} (P : State → Prop) [DecidablePred P]
    (h : (nextOf o).any (fun t => decide (P t)) = true) : ∃ t, o = .next t ∧ P t := by
  cases o with
  | next t => exact ⟨t, rfl, by simpa [nextOf] using h⟩
  | fault r => simp [nextOf] at h
  | refused r => simp [nextOf] at h

theorem next_of_isSome {o : Result} (h : (nextOf o).isSome = true) : ∃ t, o = .next t := by
  cases o with
  | next t => exact ⟨t, rfl⟩
  | fault r => simp [nextOf] at h
  | refused r => simp [nextOf] at h

/-- DecodeInvertsEncode: every constructor, at the ends of its row. -/
theorem test_premise_decode_inverts_encode :
    ∀ i ∈ [Instr.setpixel 0xFFFF#16 pxE, .setall pxE, .clear, .reserved00, .reserved04 0x04#8, .reserved04 0x07#8,
      .reserved08 0x08#8, .reserved08 0x0F#8, .reserved10 0x10#8, .reserved10 0x1F#8, .reserved20 0x20#8, .reserved20 0x3F#8,
      .reserved40 0x40#8, .reserved40 0x7F#8, .reserved80 0x80#8, .reserved80 0xFF#8], i.WellFormed = true := by decide

/-- OpcodeSelectsTheOperation: the four cases of the opcode. -/
theorem test_premise_opcode_selects :
    opField 0x010000010204#48 = 0x01#8 ∧ opField 0x0200000FF0AA#48 = 0x02#8 ∧ opField 0x030000000000#48 = 0x03#8 ∧
    opField 0x04123456789A#48 = 0x04#8 ∧ opField 0x000000000000#48 = 0x00#8 := by decide

/-- UnusedFieldsAreIgnored: K5 and K6; K7 and K8; a row of the table. -/
theorem test_premise_unused_fields :
    (opField 0x0200000FF0AA#48 = opField 0x02ABCD0FF0AA#48 ∧ opField 0x0200000FF0AA#48 ≠ 0x01#8 ∧
      colorField 0x0200000FF0AA#48 = colorField 0x02ABCD0FF0AA#48) ∧
    (opField 0x030000000000#48 = opField 0x03FFFFFFFFFF#48 ∧ opField 0x030000000000#48 ≠ 0x01#8 ∧
      opField 0x030000000000#48 ≠ 0x02#8) ∧ opcodeTable.length = 10 := by decide

/-- ReservedWordsExecuteAsNoOperations: K9, K10, K11. -/
theorem test_premise_reserved_words :
    isReserved (decode 0x000000000000#48) = true ∧ isReserved (decode 0x04123456789A#48) = true ∧
    isReserved (decode 0xFF0000000000#48) = true := by decide

/-- SetpixelWritesOnePixelOrIsRejected: the last valid index with the lock free and with the lock taken; one past it (M2, M3). -/
theorem test_premise_setpixel :
    (stM.fb.length = stM.cfg.ledCount ∧ (2#16).toNat < stM.cfg.ledCount ∧ stM.lock = .free) ∧
    (stMTx.fb.length = stMTx.cfg.ledCount ∧ (2#16).toNat < stMTx.cfg.ledCount ∧ stMTx.lock ≠ .free) ∧
    stM.cfg.ledCount ≤ (3#16).toNat := by decide

/-- SetallWritesEveryPixel, ClearZeroesEveryPixel: the lock free, and taken. -/
theorem test_premise_setall_and_clear : stM.lock = .free ∧ stMTx.lock ≠ .free := by decide

/-- CommandFrame, CommandsAreIdempotent: a command that answers a next state, in each of its shapes; another port; another pixel. -/
theorem test_premise_command_frame :
    (∃ t, exec (.setpixel 1#16 pxE) stM = .next t) ∧ (∃ t, exec (.setpixel 3#16 pxE) stM = .next t) ∧
    (∃ t, exec (.setall pxE) stM = .next t) ∧ (∃ t, exec .clear stMTx = .next t) ∧
    (∃ t, exec (.reserved80 0xFF#8) stM = .next t) ∧ 1 ≠ stM.port ∧ (0 : Nat) ≠ (1#16).toNat :=
  ⟨next_of_isSome (by decide), next_of_isSome (by decide), next_of_isSome (by decide), next_of_isSome (by decide),
    next_of_isSome (by decide), by decide, by decide⟩

/-- NoCommandEverStops. -/
theorem test_premise_no_command_stops : stM.fb.length = stM.cfg.ledCount := by decide

/-- SnapshotReadsWhatCommandsWrote: both clauses, at the last index. -/
theorem test_premise_snapshot :
    (stM.fb.length = stM.cfg.ledCount ∧ (2#16).toNat < stM.cfg.ledCount ∧ stM.lock = .free ∧
      ∃ t, exec (.setpixel 2#16 pxE) stM = .next t) ∧
    (2 < stM.cfg.ledCount ∧ ∃ t, exec .clear stM = .next t) :=
  ⟨⟨by decide, by decide, by decide, next_of_isSome (by decide)⟩, by decide, next_of_isSome (by decide)⟩

/-- ErrorEventsHaveOnlyTheirCauses: a step that signals nothing, a rejected index, a bus failure. -/
theorem test_premise_error_events :
    (∃ t, step (choosing (.execute 0) (pending 0 0x030000000000#48 stM)) = .next t ∧ t.signals = []) ∧
    (∃ t, step (choosing (.execute 0) (pending 0 0x010003FFFFFF#48 stM)) = .next t ∧ t.signals = [.indexOutOfRange 3]) ∧
    (∃ t, step (choosing (.sequencer true true) atWrite) = .next t ∧ t.signals = [.busWriteFailure 10]) :=
  ⟨next_of_check (fun t => t.signals = []) (by decide),
    next_of_check (fun t => t.signals = [.indexOutOfRange 3]) (by decide),
    next_of_check (fun t => t.signals = [.busWriteFailure 10]) (by decide)⟩

/-- IssueIsAcceptedExactlyByAReadyPort: the last port ready, the last port busy, one past the last port. -/
theorem test_premise_issue :
    (nextChoice (choosing (.issue 1 7#48) stM) = .issue 1 7#48 ∧ 1 < stM.cmd.length ∧ latch 1 stM = none) ∧
    (1 < (pending 1 0#48 stM).cmd.length ∧ latch 1 (pending 1 0#48 stM) ≠ none) ∧ stM.cmd.length ≤ 2 := by decide

/-- StepExecutesTheDecodedCommand: a pending word, and none. -/
theorem test_premise_step_executes :
    (nextChoice (choosing (.execute 1) (pending 1 0x030000000000#48 stM)) = .execute 1 ∧
      latch 1 (choosing (.execute 1) (pending 1 0x030000000000#48 stM)) = some 0x030000000000#48 ∧
      decode 0x030000000000#48 = .clear) ∧
    latch 1 (choosing (.execute 1) stM) = none := by decide

/-- StepWithNoSettledChoiceTakesAFreeOne. -/
theorem test_premise_free_choice : State.reset.sched = [] := by decide

/-- PendingCommandStaysUntilExecuted: a sequencer step beside a pending command. -/
theorem test_premise_pending :
    let s := choosing (.sequencer true false) (pending 1 0x030000000000#48 atWrite)
    (∃ t, step s = .next t) ∧ latch 1 s = some 0x030000000000#48 ∧ nextChoice s ≠ .execute 1 ∧ isReset (nextChoice s) = false :=
  ⟨next_of_isSome (by decide), by decide, by decide, by decide⟩

/-- EnabledCommandCompletes: `CLEAR` under a free lock; a reserved word while the sequencer owns the lock. -/
theorem test_premise_enabled_completes :
    let s := choosing (.execute 0) (pending 0 0x030000000000#48 atIdle)
    let u := choosing (.execute 0) (pending 0 0x04123456789A#48 atEncode)
    (Inv s ∧ nextChoice s = .execute 0 ∧ latch 0 s = some 0x030000000000#48 ∧ s.lock = .free) ∧
    (Inv u ∧ nextChoice u = .execute 0 ∧ latch 0 u = some 0x04123456789A#48 ∧
      needsLock u.cfg (decode 0x04123456789A#48) = false) :=
  ⟨⟨inv_of_checks _ [pxE] (by decide) (by decide) (by decide) (by decide) (by decide) (by decide) (by decide),
      by decide, by decide, by decide⟩,
    inv_of_checks _ [pxE] (by decide) (by decide) (by decide) (by decide) (by decide) (by decide) (by decide),
    by decide, by decide, by decide⟩

/-- IdleCountsDownThenGoesOn: `timer` 1 and 0. -/
theorem test_premise_idle :
    nextChoice (choosing (.sequencer true false) atIdle) = .sequencer true false ∧
    (({ atIdle with timer := 1 } : State).phase = .idle ∧ 0 < ({ atIdle with timer := 1 } : State).timer) ∧
    (atIdle.phase = .idle ∧ atIdle.timer = 0) := by decide

/-- ZerofillZeroesThePayload: from a payload that is not zero; the last offset, and one past it. -/
theorem test_premise_zerofill :
    atZerofill.phase = .zerofill ∧ Memory.wf atZerofill.pl ∧ atZerofill.pl ≠ [] ∧ 23 < atZerofill.cfg.payloadLen ∧
    atZerofill.cfg.payloadLen ≤ 24 := by decide

/-- AcquireTakesAFreeLockOrWaits: the lock free, and taken by a producer (section 2.4, corner cases). -/
theorem test_premise_acquire :
    (atAcquire.phase = .acquire ∧ atAcquire.lock = .free) ∧
    (({ atAcquire with lock := .prod 0 } : State).phase = .acquire ∧ ({ atAcquire with lock := .prod 0 } : State).lock ≠ .free) := by
  decide

/-- EncodeWritesOnePixelAStep: the last pixel, and the end of the loop; the last channel, bit and slot. -/
theorem test_premise_encode :
    (atEncode.phase = .encode ∧ atEncode.px < atEncode.cfg.ledCount ∧ atEncode.fb[atEncode.px]? = some pxE ∧
      atEncode.lock = .tx ∧ Memory.wf atEncode.pl ∧
      atEncode.wo + 24 * atEncode.cfg.symbolsPerBit ≤ atEncode.cfg.payloadLen ∧
      [pxE.g, pxE.r, pxE.b][2]? = some 0x56#8 ∧ 7 < 8 ∧ 0 < atEncode.cfg.symbolsPerBit) ∧
    (atEncodeEnd.phase = .encode ∧ atEncodeEnd.cfg.ledCount ≤ atEncodeEnd.px) := by decide

/-- ReleaseFreesTheLock, SelectAssertsDeviceSelect, DeselectEndsTheFrame. -/
theorem test_premise_release_select_deselect :
    ({ atRelease with lock := .tx } : State).phase = .release ∧ atRelease.lock = .tx ∧ atSelect.phase = .select ∧
    atDeselect.phase = .deselect := by decide

/-- WritePushesOneSymbolAStep: the last symbol and none left, with a bus that cannot fail and with one that does not; and the bus not accepting, with a
failure drawn. -/
theorem test_premise_write :
    (({ atWrite with rk := 23 } : State).phase = .write ∧
      ({ atWrite with rk := 23 } : State).rk < ({ atWrite with rk := 23 } : State).cfg.payloadLen) ∧
    (atWriteEnd.phase = .write ∧ atWriteEnd.rk = atWriteEnd.cfg.payloadLen) ∧
    ({ atWrite with cfg := { cfgF with busCanFail := false } } : State).cfg.busCanFail = false ∧
    (nextChoice (choosing (.sequencer false true) atWrite) = .sequencer false true ∧ atWrite.phase = .write ∧
      atWrite.cfg.busCanFail = true ∧ atWrite.rk < atWrite.cfg.payloadLen) := by decide

/-- BusFailureCutsTheFrame: the bus accepting, and every symbol out (X2, X4). -/
theorem test_premise_bus_failure :
    (atWrite.phase = .write ∧ atWrite.cfg.busCanFail = true) ∧
    (atWriteEnd.phase = .write ∧ atWriteEnd.cfg.busCanFail = true ∧ atWriteEnd.rk = atWriteEnd.cfg.payloadLen) := by decide

/-- PhaseMovesOnlyByTheTable and every other statement about one step: in each phase the sequencer's step is answered. -/
theorem test_premise_every_phase_steps :
    ∀ s ∈ [atIdle, { atIdle with timer := 1 }, atZerofill, atAcquire, atEncode, atEncodeEnd, atRelease, atSelect, atWrite,
      atWriteEnd, atDeselect], ∃ t, step (choosing (.sequencer true false) s) = .next t := by
  have h : ∀ s ∈ [atIdle, { atIdle with timer := 1 }, atZerofill, atAcquire, atEncode, atEncodeEnd, atRelease, atSelect, atWrite,
      atWriteEnd, atDeselect], (nextOf (step (choosing (.sequencer true false) s))).isSome = true := by decide
  exact fun s hs => next_of_isSome (h s hs)

/-- PhaseMovesOnlyByTheTable: `WRITE` while the bus does not accept, with symbols left (no failure drawn, and one drawn) and with none left. -/
theorem test_premise_write_not_ready :
    ∀ s ∈ [choosing (.sequencer false false) atWrite, choosing (.sequencer false true) atWrite, choosing (.sequencer false false) atWriteEnd],
      s.phase = .write ∧ ∃ t, step s = .next t := by
  have h : ∀ s ∈ [choosing (.sequencer false false) atWrite, choosing (.sequencer false true) atWrite,
      choosing (.sequencer false false) atWriteEnd], s.phase = .write ∧ (nextOf (step s)).isSome = true := by decide
  exact fun s hs => ⟨(h s hs).1, next_of_isSome (h s hs).2⟩

/-- PhaseMovesOnlyByTheTable: `ACQUIRE` while a producer owns the lock. -/
theorem test_premise_acquire_waits :
    ∃ t, step (choosing (.sequencer true false) { atAcquire with lock := .prod 0 }) = .next t ∧ t.phase = .acquire :=
  next_of_check (fun t => t.phase = .acquire) (by decide)

/-- PhaseMovesOnlyByTheTable: a reset, an issue and an execute step are answered too. -/
theorem test_premise_phase_other_agents :
    ∀ c ∈ [Choice.rst [pxE] symsE, .issue 0 0#48, .execute 0], ∃ t, step (choosing c atWrite) = .next t := by
  have h : ∀ c ∈ [Choice.rst [pxE] symsE, .issue 0 0#48, .execute 0],
      (nextOf (step (choosing c atWrite))).isSome = true := by decide
  exact fun c hc => next_of_isSome (h c hc)

/-- ResetPutsEveryRegisterToItsResetValue: in the middle of a frame. -/
theorem test_premise_reset :
    nextChoice (choosing (.rst [pxE] symsE) atWrite) = .rst [pxE] symsE ∧ [pxE].length = atWrite.cfg.ledCount ∧
    symsE.length = atWrite.cfg.payloadLen := by decide

/-- A history whose newest frame was cut at `rk = 10` by its own failure (X2), in `DESELECT`, after a good frame. -/
def histX2 : Hist where
  st := { atDeselect with rk := 10, signals := [.busWriteFailure 10], trace := closedFrame symsE ++ openFrame (symsE.take 10) }
  snaps := [[pxE], [pxE]]
  ends := [none, some 10]

/-- A history in `WRITE`, and one in `ENCODE`, each with its first cycle under way. -/
def histWrite : Hist := ⟨choosing (.sequencer true true) atWrite, [[pxE]], []⟩

def histEncode : Hist := ⟨choosing (.sequencer true false) atEncode, [[pxE]], []⟩

/-- FramesOnTheBusAreSnapshots: histories that meet the invariant, and each takes its step. -/
theorem test_premise_hist_write : HistInv histWrite ∧ ∃ h', histWrite.next = some h' :=
  ⟨⟨test_inv_any_schedule _ _ test_inv_atWrite, by decide, fun _ => ⟨[pxE], by decide⟩, by decide, by decide, nofun⟩, _, rfl⟩

theorem test_premise_hist_encode : HistInv histEncode ∧ ∃ h', histEncode.next = some h' :=
  ⟨⟨test_inv_any_schedule _ _ test_inv_atEncode, by decide, fun _ => ⟨[pxE], by decide⟩, by decide, by decide, nofun⟩, _, rfl⟩

theorem test_premise_hist_deselect : HistInv histX2 where
  inv := by
    have h : Inv { atDeselect with rk := 10, trace := openFrame (symsE.take 10) } :=
      inv_of_checks _ [pxE] (by decide) (by decide) (by decide) (by decide) (by decide) (by decide) (by decide)
    exact { h with traceForm := ⟨[symsE], by decide⟩ }
  aligned := by decide
  current := by decide
  trace := by decide
  traceAtDeselect := by decide
  cuts k hk := by
    have e : k = 10 := by simpa [histX2] using hk
    subst e
    decide

/-- The failure drawn at `rk = 10` is recorded as the end of its own cycle (X2). -/
theorem test_X2_history : (histWrite.next.map fun h => (h.snaps, h.ends)) = some ([[pxE]], [some 10]) := by decide

/-- LaunchMeetsTheInvariant, FramesOnTheBusAreSnapshots: a launch with the payload arbitrary. -/
theorem test_premise_launch : LaunchOk cfgF [pxE] [(3, 0x77#8), (23, 0x01#8)] := by decide

/-- EveryStepKeepsTheInvariant, InvariantStatesNeverStop: in `ENCODE`, where the step reads `FB` and writes `PL`. -/
theorem test_premise_invariant_step :
    let s := choosing (.sequencer true false) atEncode
    Inv s ∧ ∃ t, step s = .next t :=
  ⟨inv_of_checks _ [pxE] (by decide) (by decide) (by decide) (by decide) (by decide) (by decide) (by decide),
    next_of_isSome (by decide)⟩

/-- FrameBufferChangesOnlyByCommands: changed by a command, and by reset. -/
theorem test_premise_frame_buffer_changes :
    let s := choosing (.execute 0) (pending 0 0x030000000000#48 atIdle)
    let u := choosing (.rst [⟨1#8, 1#8, 1#8⟩] []) atIdle
    (∃ t, step s = .next t ∧ t.fb ≠ s.fb) ∧ (∃ t, step u = .next t ∧ t.fb ≠ u.fb) :=
  ⟨next_of_check (fun t => t.fb ≠ _) (by decide), next_of_check (fun t => t.fb ≠ _) (by decide)⟩

/-- FrameBufferIsStableDuringTheSnapshot: a command executed while the sequencer owns the lock. -/
theorem test_premise_snapshot_stable :
    let s := choosing (.execute 0) (pending 0 0x030000000000#48 atEncode)
    s.lock = .tx ∧ isReset (nextChoice s) = false ∧ ∃ t, step s = .next t :=
  ⟨by decide, by decide, next_of_isSome (by decide)⟩

/-- PayloadIsStableDuringTransmission: `CLEAR` during `WRITE` (program P3). -/
theorem test_premise_payload_stable :
    let s := choosing (.execute 0) (pending 0 0x030000000000#48 atWrite)
    transmitting s.phase = true ∧ isReset (nextChoice s) = false ∧ ∃ t, step s = .next t ∧ t.fb ≠ s.fb :=
  ⟨by decide, by decide, next_of_check (fun t => t.fb ≠ _) (by decide)⟩

/-- PayloadIsPrivateToTheSequencer: changed by `ZEROFILL`, by `ENCODE`, and by reset. -/
theorem test_premise_payload_private :
    let s := choosing (.sequencer false false) atZerofill
    let u := choosing (.sequencer false false) atEncode
    let v := choosing (.rst [pxE] symsE) atIdle
    (∃ t, step s = .next t ∧ t.pl ≠ s.pl) ∧ (∃ t, step u = .next t ∧ t.pl ≠ u.pl) ∧ (∃ t, step v = .next t ∧ t.pl ≠ v.pl) :=
  ⟨next_of_check (fun t => t.pl ≠ _) (by decide), next_of_check (fun t => t.pl ≠ _) (by decide),
    next_of_check (fun t => t.pl ≠ _) (by decide)⟩

/-- BusEventsFollowDeviceSelect: each of its four outcomes (the invariant holds by `test_inv_…` of the same states: it does not read the
schedule). -/
theorem test_premise_bus_events :
    (nextOf (step (choosing (.sequencer true false) atIdle))).map (·.trace) = some atIdle.trace ∧
    (nextOf (step (choosing (.sequencer true false) atSelect))).map (·.trace) = some (atSelect.trace ++ [.select]) ∧
    (nextOf (step (choosing (.sequencer true false) atWrite))).map (·.trace) =
      some (atWrite.trace ++ [.sym (symData atWrite)]) ∧
    (nextOf (step (choosing (.sequencer true false) atDeselect))).map (·.trace) = some (atDeselect.trace ++ [.deselect]) := by
  decide

/-- WholeCycleTransmitsTheSnapshot. -/
theorem test_premise_whole_cycle :
    let s : State := { atAcquire with sched := List.replicate (cycleSteps cfgF) (.sequencer true false) ++ [.execute 0] }
    Inv s ∧ s.phase = .acquire ∧ s.lock = .free ∧
      s.sched = List.replicate (cycleSteps s.cfg) (.sequencer true false) ++ [.execute 0] :=
  ⟨inv_of_checks _ [pxE] (by decide) (by decide) (by decide) (by decide) (by decide) (by decide) (by decide), by decide,
    by decide, by decide⟩

/-- EveryPhaseTakesItsExit: the one-step phases and the longest loops, with other agents' steps between. -/
theorem test_premise_every_phase_exits :
    (∀ s ∈ [atIdle, atZerofill, atAcquire, atEncodeEnd, atRelease, atSelect, atWriteEnd, atDeselect],
      exitBound s ≤ [Choice.execute 0, .sequencer false true, .sequencer true true].countP isReadySequencer) ∧
    exitBound atEncode ≤ [Choice.sequencer true false, .issue 0 0#48, .sequencer true false].countP isReadySequencer ∧
    exitBound atWrite ≤ (List.replicate 15 (Choice.sequencer true false)).countP isReadySequencer ∧
    (∀ c ∈ [Choice.execute 0, .sequencer false true, .sequencer true true], isReset c = false) := by decide

/-- A run for fairness: port 0 has `CLEAR` pending and is scheduled at every step. -/
def fairRun (n : Nat) : State :=
  if n = 0 then pending 0 0x030000000000#48 atIdle else { atIdle with fb := [⟨0#8, 0#8, 0#8⟩] }

/-- FairArbitrationExcludesStarvation: a fair run in which the agent does ask for the lock. -/
theorem test_premise_fairness :
    IsRun (fun _ => .execute 0) fairRun ∧ FairArbitration (fun _ => .execute 0) fairRun (.prod 0) ∧ Wants (.prod 0) (fairRun 0) := by
  refine ⟨fun n => ?_, fun k => ⟨k, le_refl k, fun h => ⟨?_, rfl⟩⟩, 0x030000000000#48, by decide, by decide⟩
  · cases n with
    | zero => rfl
    | succ n => rfl
  · cases k with
    | zero => rfl
    | succ k => rfl

/-- The starvation that fairness excludes is possible without it (X6): the sequencer waits in `ACQUIRE` while only a port is scheduled. -/
theorem test_X6_starvation_is_possible :
    IsRun (fun _ => .execute 0) (fun _ => atAcquire) ∧ LockStarvation (fun _ => atAcquire) .tx :=
  ⟨fun _ => rfl, 0, fun _ _ => rfl⟩

/-- EncbitYieldsOneGroup, EncbyteWritesItsFieldOrIsRefused, EncpixelChainsGreenRedBlue: an admissible configuration, the last legal offset and the
next one; a pixel that fits exactly. -/
theorem test_premise_encoder :
    cfgF.wf ∧ Memory.wf plE ∧ 16 + 8 * cfgF.symbolsPerBit ≤ cfgF.payloadLen ∧ cfgF.payloadLen < 17 + 8 * cfgF.symbolsPerBit ∧
    0 + 24 * cfgF.symbolsPerBit ≤ cfgF.payloadLen := by decide

/-- PayloadMapIsABijection: CFG-B, the last quadruple and the last offset. -/
theorem test_premise_payload_map :
    State.resetCfg.wf ∧ 1 < State.resetCfg.ledCount ∧ 0 < State.resetCfg.symbolsPerBit ∧
    State.resetCfg.payloadOffset 1 2 7 0 = 51 ∧ State.resetCfg.preambleLen ≤ 51 ∧ 51 < State.resetCfg.payloadLen := by decide

/-- ComposeFollowsThePayloadMap, CompleteFrameHasItsLengthAndSymbols, CompleteFrameReadsBack, ComposeIsInjective: CFG-B and two pixels. -/
theorem test_premise_compose :
    State.resetCfg.wf ∧ State.resetPixels.length = State.resetCfg.ledCount ∧ 3 < State.resetCfg.preambleLen ∧
    State.resetPixels[1]? = some ⟨0x44#8, 0x55#8, 0x66#8⟩ ∧ (compose State.resetCfg State.resetPixels).length = 52 := by decide

/-- DecbyteInvertsEncbyte, DecbyteIsUndefinedOffTheTwoSymbols. -/
theorem test_premise_decbyte :
    cfgF.wf ∧ Memory.wf ([] : Memory) ∧ (encByte cfgF 0xA5#8 16 []).isOk = true ∧
    (0x00#8 ∈ [0x00#8, 0xC0#8] ∧ 0x00#8 ≠ cfgF.sym0 ∧ 0x00#8 ≠ cfgF.sym1) := by decide

/-- SourceScenarioComposes: CFG-A. -/
theorem test_premise_source_scenario :
    let c : Cfg := { cfgF with ledCount := 8, preambleLen := 50, symbolsPerBit := 8 }
    c.wf ∧ c.ledCount = 8 ∧ c.preambleLen = 50 ∧ c.symbolsPerBit = 8 ∧ c.payloadLen = 1586 := by decide

end Sys2Proof.Tests
end

section
/-! PROOFS. The statements of 00_scope.md: the unread parameters (R11, R12, R54) and the choice of the environment (R17, R189). -/

namespace Sys2Proof.Machine

/-! ### Operations that a change of the state passes through -/

/-- The operation answers on the changed state what it answers on the state, a next state changed in the same way: the change is to fields that the
operation neither looks at nor writes. -/
def PassesThrough (f : State → State) (op : State → Result) : Prop :=
  ∀ s, op (f s) = andThen (op s) fun t => .next (f t)

section PassesThrough

variable {f : State → State}

theorem PassesThrough.next {g : State → State} (h : ∀ s, g (f s) = f (g s)) : PassesThrough f fun s => .next (g s) :=
  fun s => congrArg Host.Outcome.next (h s)

theorem PassesThrough.fault (r : Fault) : PassesThrough f fun _ => .fault r := fun _ => rfl

theorem PassesThrough.ite {c : State → Prop} [DecidablePred c] {op op' : State → Result} (hc : ∀ s, c (f s) ↔ c s)
    (h : PassesThrough f op) (h' : PassesThrough f op') : PassesThrough f fun s => if c s then op s else op' s := by
  intro s
  by_cases hs : c s
  · simp only [hc, hs, if_true, h s]
  · simp only [hc, hs, if_false, h' s]

/-- A sequence passes a change through when both parts do; the second part may depend on what the change leaves alone (`hk`). -/
theorem PassesThrough.andThen {op : State → Result} {k : State → State → Result} (h : PassesThrough f op)
    (hk : ∀ s, k (f s) = k s) (h' : ∀ s, PassesThrough f (k s)) :
    PassesThrough f fun s => Machine.andThen (op s) (k s) := by
  intro s
  simp only [h s, hk s]
  cases op s with
  | next t => exact h' s t
  | fault r => rfl
  | refused r => rfl

end PassesThrough

/-! ### The unread parameters -/

/-- The state with other values of `BUS_DATA_RATE` and `SYMBOL_BIT_ORDER` (R11, R12). -/
def withUnread (rate : Nat) (order : SymbolBitOrder) (s : State) : State :=
  { s with cfg := { s.cfg with busDataRate := rate, symbolBitOrder := order } }

section Unread

variable (rate : Nat) (order : SymbolBitOrder)

/-! #### Commands -/

theorem writePixel_unread (a : Lock) (i : Nat) (v : Pixel) : PassesThrough (withUnread rate order) (writePixel a i v) :=
  .ite (fun _ => .rfl) (.fault _) (.ite (fun _ => .rfl) (.next fun _ => rfl) (.fault _))

theorem writeEveryPixel_unread (a : Lock) (v : Pixel) : PassesThrough (withUnread rate order) (writeEveryPixel a v) :=
  .ite (fun _ => .rfl) (.fault _) (.next fun _ => rfl)

theorem releaseLock_unread (a : Lock) : PassesThrough (withUnread rate order) (releaseLock a) :=
  .ite (fun _ => .rfl) (.next fun _ => rfl) (.fault _)

/-- The port that the body of a command runs for is a field of the state that the change leaves alone. -/
theorem commandUnderLock_unread {body : Lock → State → Result} (h : ∀ a, PassesThrough (withUnread rate order) (body a)) :
    PassesThrough (withUnread rate order) fun s => commandUnderLock (body (.prod s.port)) s := by
  have release (p : Nat) : PassesThrough (withUnread rate order)
      fun t => andThen (releaseLock (.prod p) t) fun u => .next (completeCommand u) :=
    .andThen (releaseLock_unread rate order _) (fun _ => rfl) fun _ => .next fun _ => rfl
  have locked : PassesThrough (withUnread rate order) fun s => body (.prod s.port) (setLock (.prod s.port) s) :=
    fun s => h (.prod s.port) (setLock (.prod s.port) s)
  exact .ite (fun _ => .rfl) (.andThen locked (fun _ => rfl) fun s => release s.port) (.next fun _ => rfl)

theorem dropCommand_unread : PassesThrough (withUnread rate order) dropCommand := .next fun _ => rfl

theorem exec_unread (i : Instr) : PassesThrough (withUnread rate order) (exec i) := by
  cases i with
  | setpixel index color =>
    exact .ite (fun _ => .rfl) (.next fun _ => rfl)
      (commandUnderLock_unread rate order fun a => writePixel_unread rate order a index.toNat color)
  | setall color => exact commandUnderLock_unread rate order fun a => writeEveryPixel_unread rate order a color
  | clear => exact commandUnderLock_unread rate order fun a => writeEveryPixel_unread rate order a Pixel.black
  | reserved00 => exact dropCommand_unread rate order
  | reserved04 _ => exact dropCommand_unread rate order
  | reserved08 _ => exact dropCommand_unread rate order
  | reserved10 _ => exact dropCommand_unread rate order
  | reserved20 _ => exact dropCommand_unread rate order
  | reserved40 _ => exact dropCommand_unread rate order
  | reserved80 _ => exact dropCommand_unread rate order

/-! #### Sequencer -/

/-- The encoder reads neither parameter (R54): what it needs of the configuration are lengths and the two symbols. -/
theorem encPixel_unread (s : State) : encPixel (withUnread rate order s).cfg = encPixel s.cfg := rfl

theorem readPixel_unread (a : Lock) (i : Nat) (s : State) : readPixel a i (withUnread rate order s) = readPixel a i s := rfl

theorem encodeOnePixel_unread : PassesThrough (withUnread rate order) encodeOnePixel := by
  intro s
  have hpx : (withUnread rate order s).px = s.px := rfl
  have hwo : (withUnread rate order s).wo = s.wo := rfl
  have hpl : (withUnread rate order s).pl = s.pl := rfl
  simp only [encodeOnePixel, readPixel_unread, encPixel_unread, hpx, hwo, hpl]
  cases readPixel .tx s.px s with
  | error r => rfl
  | ok p =>
    dsimp only
    cases encPixel s.cfg p s.wo s.pl with
    | error r => rfl
    | ok x => rfl

theorem phaseWrite_unread (ready fail : Bool) : PassesThrough (withUnread rate order) (phaseWrite ready fail) :=
  .ite (fun _ => .rfl) (.next fun _ => rfl)
    (.ite (fun _ => .rfl) (.next fun _ => rfl) (.ite (fun _ => .rfl) (.next fun _ => rfl) (.next fun _ => rfl)))

theorem sequencerStep_unread (ready fail : Bool) : PassesThrough (withUnread rate order) (sequencerStep ready fail) := by
  have idle : PassesThrough (withUnread rate order) phaseIdle := .ite (fun _ => .rfl) (.next fun _ => rfl) (.next fun _ => rfl)
  have acquire : PassesThrough (withUnread rate order) phaseAcquire :=
    .ite (fun _ => .rfl) (.next fun _ => rfl) (.next fun _ => rfl)
  have encode : PassesThrough (withUnread rate order) phaseEncode :=
    .ite (fun _ => .rfl) (encodeOnePixel_unread rate order) (.next fun _ => rfl)
  have release : PassesThrough (withUnread rate order) phaseRelease :=
    .andThen (releaseLock_unread rate order .tx) (fun _ => rfl) fun _ => .next fun _ => rfl
  intro s
  have hphase : (withUnread rate order s).phase = s.phase := rfl
  simp only [sequencerStep, hphase]
  cases s.phase with
  | idle => exact idle s
  | zerofill => rfl
  | acquire => exact acquire s
  | encode => exact encode s
  | release => exact release s
  | select => rfl
  | write => exact phaseWrite_unread rate order ready fail s
  | deselect => rfl

/-! #### One step -/

theorem executeStep_unread (p : Nat) : PassesThrough (withUnread rate order) (executeStep p) := by
  intro s
  have hlatch : latch p (withUnread rate order s) = latch p s := rfl
  simp only [executeStep, hlatch]
  cases latch p s with
  | none => rfl
  | some w => exact exec_unread rate order (decode w) (selectPort p s)

theorem choiceStep_unread (c : Choice) : PassesThrough (withUnread rate order) (choiceStep c) := by
  cases c with
  | rst fb pl => exact .next fun _ => rfl
  | issue p w => exact .ite (fun _ => .rfl) (.next fun _ => rfl) (.next fun _ => rfl)
  | execute p => exact executeStep_unread rate order p
  | sequencer ready fail => exact sequencerStep_unread rate order ready fail

theorem nextChoice_unread (s : State) : nextChoice (withUnread rate order s) = nextChoice s := rfl

theorem consumeChoice_unread (s : State) :
    consumeChoice (withUnread rate order s) = withUnread rate order (consumeChoice s) := by
  cases hs : s.sched <;> simp only [consumeChoice, withUnread, hs]

theorem step_unread : PassesThrough (withUnread rate order) step := by
  intro s
  rw [step, nextChoice_unread, consumeChoice_unread, choiceStep_unread]
  rfl

end Unread

/-- Settles O45: every operation of the step passes a change of the two parameters through. -/
theorem unreadParametersChangeNothing : Obligations.UnreadParametersChangeNothing := by
  unfold Obligations.UnreadParametersChangeNothing
  intro s t rate order h
  have hstep : step (withUnread rate order s) = .next (withUnread rate order t) := by
    rw [step_unread, h, andThen_next]
  exact hstep

/-! ### The environment's choice -/

theorem nextChoice_of_sched_nil {s : State} (h : s.sched = []) : nextChoice s = Config.freeChoice s.draws := by
  simp only [nextChoice, h]

theorem consumeChoice_of_sched_nil {s : State} (h : s.sched = []) : consumeChoice s = { s with draws := s.draws + 1 } := by
  simp only [consumeChoice, h]

/-- Settles O20: with no settled choice, the choice taken is the free value and one more draw is counted. -/
theorem stepWithNoSettledChoiceTakesAFreeOne : Obligations.StepWithNoSettledChoiceTakesAFreeOne := by
  unfold Obligations.StepWithNoSettledChoiceTakesAFreeOne
  intro s h
  rw [step_of_nextChoice (nextChoice_of_sched_nil h), consumeChoice_of_sched_nil h]

end Sys2Proof.Machine
end

section
/-! PROOFS. The statements of 10_state.md: what a command and a step leave unchanged (R22, R24, R25, R29, R192), the bus events that a step
emits (R38, R39, R86), and the two ghost records (R20, R38, R184). -/

namespace Sys2Proof.Machine

open Sys2Proof.Safety

/-! ### What a command can do, told by command -/

/-- A command under the lock whose body sets `FB` to `g` of the state: it waits, or it leaves `FB` so and the latch empty. -/
theorem commandUnderLock_write_cases {body : State → Result} {g : State → List Pixel} {s t : State}
    (hbody : ∀ u v, body u = .next v → v = { u with fb := g u }) (h : commandUnderLock body s = .next t) :
    (s.lock ≠ .free ∧ t = s) ∨
    (s.lock = .free ∧ t = { s with fb := g (setLock (.prod s.port) s), cmd := s.cmd.set s.port none }) := by
  rcases commandUnderLock_next_cases (fun u v hv => ⟨_, hbody u v hv⟩) h with hw | ⟨hf, fb, hb, rfl⟩
  · exact .inl hw
  · have hfb : fb = g (setLock (.prod s.port) s) := congrArg State.fb (hbody _ _ hb)
    exact .inr ⟨hf, by rw [hfb]⟩

theorem writePixel_next {a : Lock} {k : Nat} {v : Pixel} {s t : State} (h : writePixel a k v s = .next t) :
    t = { s with fb := s.fb.set k v } := by
  rcases writePixel_cases a k v s with ⟨_, _, e⟩ | ⟨_, e⟩ | ⟨_, _, e⟩ <;> rw [e] at h <;> cases h
  rfl

theorem writeEveryPixel_next {a : Lock} {v : Pixel} {s t : State} (h : writeEveryPixel a v s = .next t) :
    t = { s with fb := List.replicate s.cfg.ledCount v } := by
  rcases writeEveryPixel_cases a v s with ⟨_, e⟩ | ⟨_, e⟩ <;> rw [e] at h <;> cases h
  rfl

/-- A command's execution with the command that each case belongs to (R131 to R134): it waits, it is a rejected `SETPIXEL`, it writes the
pixel that `SETPIXEL` addresses, it is `SETALL` or `CLEAR`, or it is dropped. -/
theorem exec_cases_by_command {i : Instr} {s t : State} (h : exec i s = .next t) :
    (s.lock ≠ .free ∧ t = s) ∨
    (∃ index color, i = .setpixel index color ∧ s.cfg.ledCount ≤ index.toNat ∧
      t = { s with signals := s.signals ++ [.indexOutOfRange index.toNat], cmd := s.cmd.set s.port none }) ∨
    (s.lock = .free ∧ ∃ index color, i = .setpixel index color ∧ index.toNat < s.cfg.ledCount ∧
      t = { s with fb := s.fb.set index.toNat color, cmd := s.cmd.set s.port none }) ∨
    (s.lock = .free ∧ ∃ v, (i = .setall v ∨ i = .clear) ∧
      t = { s with fb := List.replicate s.cfg.ledCount v, cmd := s.cmd.set s.port none }) ∨
    t = { s with cmd := s.cmd.set s.port none } := by
  have every (v : Pixel) (hi : i = .setall v ∨ i = .clear)
      (hv : commandUnderLock (writeEveryPixel (.prod s.port) v) s = .next t) :
      (s.lock ≠ .free ∧ t = s) ∨ (s.lock = .free ∧ ∃ v, (i = .setall v ∨ i = .clear) ∧
        t = { s with fb := List.replicate s.cfg.ledCount v, cmd := s.cmd.set s.port none }) :=
    (commandUnderLock_write_cases (fun _ _ => writeEveryPixel_next) hv).imp_right fun ⟨hf, ht⟩ => ⟨hf, v, hi, ht⟩
  cases i with
  | setpixel index color =>
    simp only [exec, execSetpixel] at h
    split at h
    · next hout => cases h; exact .inr (.inl ⟨index, color, rfl, hout, rfl⟩)
    · next hin =>
      rcases commandUnderLock_write_cases (fun _ _ => writePixel_next) h with hw | ⟨hf, ht⟩
      · exact .inl hw
      · exact .inr (.inr (.inl ⟨hf, index, color, rfl, Nat.lt_of_not_le hin, ht⟩))
  | setall color => exact (every color (.inl rfl) h).imp_right fun hw => .inr (.inr (.inl hw))
  | clear => exact (every Pixel.black (.inr rfl) h).imp_right fun hw => .inr (.inr (.inl hw))
  | reserved00 => cases h; exact .inr (.inr (.inr (.inr rfl)))
  | reserved04 _ => cases h; exact .inr (.inr (.inr (.inr rfl)))
  | reserved08 _ => cases h; exact .inr (.inr (.inr (.inr rfl)))
  | reserved10 _ => cases h; exact .inr (.inr (.inr (.inr rfl)))
  | reserved20 _ => cases h; exact .inr (.inr (.inr (.inr rfl)))
  | reserved40 _ => cases h; exact .inr (.inr (.inr (.inr rfl)))
  | reserved80 _ => cases h; exact .inr (.inr (.inr (.inr rfl)))

/-! ### What a command leaves unchanged -/

/-- A command writes `FB`, the record of signals and the latch of its own port; nothing else. -/
theorem exec_frame {i : Instr} {s t : State} (h : exec i s = .next t) :
    ∃ fb signals cmd, t = { s with fb := fb, signals := signals, cmd := cmd } ∧ ∀ q, q ≠ s.port → cmd[q]? = s.cmd[q]? := by
  have others (q : Nat) (hq : q ≠ s.port) : (s.cmd.set s.port none)[q]? = s.cmd[q]? := List.getElem?_set_ne hq.symm
  rcases exec_cases h with ⟨_, rfl⟩ | ⟨_, rfl⟩ | ⟨_, _, _, _, rfl⟩ | ⟨_, _, rfl⟩ | rfl
  · exact ⟨_, _, _, rfl, fun _ _ => rfl⟩
  · exact ⟨_, _, _, rfl, others⟩
  · exact ⟨_, _, _, rfl, others⟩
  · exact ⟨_, _, _, rfl, others⟩
  · exact ⟨_, _, _, rfl, others⟩

/-- A pixel that the command does not name is as it was (R24). -/
theorem exec_fb_of_not_addressed {i : Instr} {s t : State} (h : exec i s = .next t) {k : Nat}
    (hpixel : ∀ index color, i = .setpixel index color → k ≠ index.toNat) (hall : ∀ color, i ≠ .setall color) (hclear : i ≠ .clear) :
    t.fb[k]? = s.fb[k]? := by
  rcases exec_cases_by_command h with ⟨_, rfl⟩ | ⟨_, _, _, _, rfl⟩ | ⟨_, index, color, hi, _, rfl⟩ | ⟨_, v, hi, _⟩ | rfl
  · rfl
  · rfl
  · exact List.getElem?_set_ne (hpixel index color hi).symm
  · exact absurd hi (not_or.2 ⟨hall v, hclear⟩)
  · rfl

/-- A command signals nothing unless it is a `SETPIXEL` whose index is outside `FB` (R181). -/
theorem exec_signals_of_in_range {i : Instr} {s t : State} (h : exec i s = .next t)
    (hin : ∀ index color, i = .setpixel index color → index.toNat < s.cfg.ledCount) : t.signals = s.signals := by
  rcases exec_cases_by_command h with ⟨_, rfl⟩ | ⟨index, color, hi, hout, _⟩ | ⟨_, _, _, _, _, rfl⟩ | ⟨_, _, _, rfl⟩ | rfl
  · rfl
  · exact absurd hout (Nat.not_le.2 (hin index color hi))
  · rfl
  · rfl
  · rfl

/-- Settles O13: the fields by `exec_frame`, `FB` and the record of signals by the case that the command is. -/
theorem commandFrame : Obligations.CommandFrame := by
  unfold Obligations.CommandFrame
  intro i s t h
  have hfb (k : Nat) := exec_fb_of_not_addressed (k := k) h
  have hsignals := exec_signals_of_in_range h
  obtain ⟨fb, signals, cmd, rfl, hcmd⟩ := exec_frame h
  exact ⟨rfl, rfl, rfl, rfl, rfl, rfl, rfl, rfl, rfl, rfl, rfl, rfl, fun _ => rfl, hcmd, hfb, hsignals⟩

/-- A command that changes `FB` needs the lock and found it free (R24, R27). -/
theorem lock_free_of_exec_fb_ne {i : Instr} {s t : State} (h : exec i s = .next t) (hne : t.fb ≠ s.fb) :
    s.lock = .free ∧ needsLock s.cfg i = true := by
  rcases exec_cases_by_command h with ⟨_, rfl⟩ | ⟨_, _, _, _, rfl⟩ | ⟨hf, _, _, rfl, hin, _⟩ | ⟨hf, _, rfl | rfl, _⟩ | rfl
  · exact absurd rfl hne
  · exact absurd rfl hne
  · exact ⟨hf, decide_eq_true hin⟩
  · exact ⟨hf, rfl⟩
  · exact ⟨hf, rfl⟩
  · exact absurd rfl hne

/-! ### What the sequencer's step leaves unchanged, and what it emits -/

section Sequencer

variable {ready fail : Bool} {s t : State}

/-- The sequencer writes neither `CFG` (R22) nor `FB` (R24). -/
theorem sequencerStep_cfg_fb (h : sequencerStep ready fail s = .next t) : t.cfg = s.cfg ∧ t.fb = s.fb := by
  rcases sequencerStep_cases h with ⟨_, _, rfl⟩ | ⟨_, _, rfl⟩ | ⟨_, rfl⟩ | ⟨_, _, rfl⟩ | ⟨_, _, rfl⟩ | ⟨_, _, _, _, _, _, _, _, rfl⟩ |
    ⟨_, _, rfl⟩ | ⟨_, _, rfl⟩ | ⟨_, rfl⟩ | ⟨_, _, _, rfl⟩ | ⟨_, _, _, _, rfl⟩ | ⟨_, _, _, _, rfl⟩ | ⟨_, _, _, _, rfl⟩ | ⟨_, rfl⟩ <;>
    exact ⟨rfl, rfl⟩

/-- Only `ZEROFILL` and `ENCODE` write the payload (R29, R152, R154). -/
theorem sequencerStep_pl (h : sequencerStep ready fail s = .next t) : s.phase = .zerofill ∨ s.phase = .encode ∨ t.pl = s.pl := by
  rcases sequencerStep_cases h with ⟨_, _, rfl⟩ | ⟨_, _, rfl⟩ | ⟨hp, _⟩ | ⟨_, _, rfl⟩ | ⟨_, _, rfl⟩ | ⟨hp, _⟩ |
    ⟨_, _, rfl⟩ | ⟨_, _, rfl⟩ | ⟨_, rfl⟩ | ⟨_, _, _, rfl⟩ | ⟨_, _, _, _, rfl⟩ | ⟨_, _, _, _, rfl⟩ | ⟨_, _, _, _, rfl⟩ | ⟨_, rfl⟩
  · exact .inr (.inr rfl)
  · exact .inr (.inr rfl)
  · exact .inl hp
  · exact .inr (.inr rfl)
  · exact .inr (.inr rfl)
  · exact .inr (.inl hp)
  · exact .inr (.inr rfl)
  · exact .inr (.inr rfl)
  · exact .inr (.inr rfl)
  · exact .inr (.inr rfl)
  · exact .inr (.inr rfl)
  · exact .inr (.inr rfl)
  · exact .inr (.inr rfl)
  · exact .inr (.inr rfl)

/-- Only `SELECT`, `WRITE` and `DESELECT` emit a bus event, and only `SELECT` and `DESELECT` move `cs_n` (R156, R157, R159). -/
theorem sequencerStep_events (h : sequencerStep ready fail s = .next t) :
    (t.trace = s.trace ∧ t.csN = s.csN) ∨
    (s.phase = .select ∧ t.trace = s.trace ++ [.select] ∧ t.csN = 0#1) ∨
    (s.phase = .deselect ∧ t.trace = s.trace ++ [.deselect] ∧ t.csN = 1#1) ∨
    (s.phase = .write ∧ s.rk < s.cfg.payloadLen ∧ t.trace = s.trace ++ [.sym (symData s)] ∧ t.csN = s.csN) := by
  rcases sequencerStep_cases h with ⟨_, _, rfl⟩ | ⟨_, _, rfl⟩ | ⟨_, rfl⟩ | ⟨_, _, rfl⟩ | ⟨_, _, rfl⟩ | ⟨_, _, _, _, _, _, _, _, rfl⟩ |
    ⟨_, _, rfl⟩ | ⟨_, _, rfl⟩ | ⟨hp, rfl⟩ | ⟨_, _, _, rfl⟩ | ⟨_, _, _, _, rfl⟩ | ⟨hp, _, _, hrk, rfl⟩ | ⟨_, _, _, _, rfl⟩ | ⟨hp, rfl⟩
  · exact .inl ⟨rfl, rfl⟩
  · exact .inl ⟨rfl, rfl⟩
  · exact .inl ⟨rfl, rfl⟩
  · exact .inl ⟨rfl, rfl⟩
  · exact .inl ⟨rfl, rfl⟩
  · exact .inl ⟨rfl, rfl⟩
  · exact .inl ⟨rfl, rfl⟩
  · exact .inl ⟨rfl, rfl⟩
  · exact .inr (.inl ⟨hp, rfl, rfl⟩)
  · exact .inl ⟨rfl, rfl⟩
  · exact .inl ⟨rfl, rfl⟩
  · exact .inr (.inr (.inr ⟨hp, hrk, rfl, rfl⟩))
  · exact .inl ⟨rfl, rfl⟩
  · exact .inr (.inr (.inl ⟨hp, rfl, rfl⟩))

end Sequencer

/-! ### What a step leaves unchanged -/

/-- A step is a reset, the sequencer's, or a producer's; a producer's step writes `FB`, the latches, the record of signals and the model's
own port, and nothing else of the block (R24, R37, R130). -/
theorem step_cases_by_agent {s t : State} (h : step s = .next t) :
    (isReset (nextChoice s) = true ∧ t.cfg = s.cfg) ∨
    (∃ ready fail, nextChoice s = .sequencer ready fail ∧ sequencerStep ready fail (consumeChoice s) = .next t) ∨
    ∃ fb signals cmd port, t = { consumeChoice s with fb := fb, signals := signals, cmd := cmd, port := port } := by
  rcases step_next_cases h with ⟨fb, pl, hc, rfl⟩ | ⟨p, w, _, ⟨_, rfl⟩ | ⟨_, rfl⟩⟩ | ⟨p, _, ⟨_, rfl⟩ | ⟨w, _, hx⟩⟩ | hseq
  · exact .inl ⟨by rw [hc]; rfl, by simp⟩
  · exact .inr (.inr ⟨_, _, _, _, rfl⟩)
  · exact .inr (.inr ⟨_, _, _, _, rfl⟩)
  · exact .inr (.inr ⟨_, _, _, _, rfl⟩)
  · obtain ⟨fb, signals, cmd, rfl, _⟩ := exec_frame hx
    exact .inr (.inr ⟨fb, signals, cmd, p, rfl⟩)
  · exact .inr (.inl hseq)

/-- Settles O38: no agent's step writes `CFG`, and reset leaves it. -/
theorem noStepWritesTheConfiguration : Obligations.NoStepWritesTheConfiguration := by
  unfold Obligations.NoStepWritesTheConfiguration
  intro s t h
  rcases step_cases_by_agent h with ⟨_, hcfg⟩ | ⟨_, _, _, hseq⟩ | ⟨_, _, _, _, rfl⟩
  · exact hcfg
  · rw [(sequencerStep_cfg_fb hseq).1, consumeChoice_cfg]
  · exact consumeChoice_cfg s

/-- Settles O39: an issue and the sequencer leave `FB`, and a command that changes it needs the lock and found it free. -/
theorem frameBufferChangesOnlyByCommands : Obligations.FrameBufferChangesOnlyByCommands := by
  unfold Obligations.FrameBufferChangesOnlyByCommands
  intro s t h hne
  rcases step_next_cases h with ⟨_, _, hc, _⟩ | ⟨_, _, _, ⟨_, rfl⟩ | ⟨_, rfl⟩⟩ | ⟨p, hc, ⟨_, rfl⟩ | ⟨w, hw, hx⟩⟩ | ⟨_, _, _, hseq⟩
  · exact .inl (by rw [hc]; rfl)
  · exact absurd (by simp) hne
  · exact absurd (by simp) hne
  · exact absurd (by simp) hne
  · obtain ⟨hfree, hneeds⟩ := lock_free_of_exec_fb_ne hx (by simpa using hne)
    exact .inr ⟨p, w, hc, hw, by simpa using hfree, by simpa using hneeds⟩
  · exact absurd ((sequencerStep_cfg_fb hseq).2.trans (consumeChoice_fb s)) hne

/-- Settles O42: a producer's step leaves `PL`, and so does the sequencer's outside `ZEROFILL` and `ENCODE`. -/
theorem payloadIsPrivateToTheSequencer : Obligations.PayloadIsPrivateToTheSequencer := by
  unfold Obligations.PayloadIsPrivateToTheSequencer
  intro s t h hne
  rcases step_cases_by_agent h with ⟨hreset, _⟩ | ⟨ready, fail, hc, hseq⟩ | ⟨_, _, _, _, rfl⟩
  · exact .inl hreset
  · have hphase := sequencerStep_pl hseq
    rw [consumeChoice_phase, consumeChoice_pl, ← or_assoc] at hphase
    exact .inr ⟨⟨ready, fail, hc⟩, hphase.resolve_right hne⟩
  · exact absurd (consumeChoice_pl s) hne

/-! ### Bus events -/

/-- Device-select is high wherever the invariant does not have it low (R36). -/
theorem csN_eq_one_of_not_selected {s : State} (hs : Inv s) (h : selected s.phase = false) : s.csN = 1#1 := by
  have hne : s.csN ≠ 0#1 := fun h0 => by simp [hs.csLow.1 h0] at h
  exact (BitVec.eq_zero_or_eq_one s.csN).resolve_left hne

/-- Settles O43: the sequencer's phase says which event its step emits, and the invariant where `cs_n` then stands. -/
theorem busEventsFollowDeviceSelect : Obligations.BusEventsFollowDeviceSelect := by
  unfold Obligations.BusEventsFollowDeviceSelect
  intro s t hs hno h
  rcases step_cases_by_agent h with ⟨hreset, _⟩ | ⟨_, _, _, hseq⟩ | ⟨_, _, _, _, rfl⟩
  · simp [hreset] at hno
  · have hevents := sequencerStep_events hseq
    simp only [symData, consumeChoice_trace, consumeChoice_csN, consumeChoice_phase, consumeChoice_rk, consumeChoice_cfg,
      consumeChoice_pl] at hevents
    rcases hevents with hquiet | ⟨hp, htrace, hcs⟩ | ⟨hp, htrace, hcs⟩ | ⟨hp, hrk, htrace, hcs⟩
    · exact .inl hquiet
    · exact .inr (.inl ⟨htrace, csN_eq_one_of_not_selected hs (by rw [hp]; rfl), hcs⟩)
    · exact .inr (.inr (.inl ⟨htrace, hs.csLow.2 (by rw [hp]; rfl), hcs⟩))
    · have hlow : s.csN = 0#1 := hs.csLow.2 (by rw [hp]; rfl)
      exact .inr (.inr (.inr ⟨htrace, hlow, hcs.trans hlow, by simp [symValid, hp, hrk]⟩))
  · exact .inl ⟨consumeChoice_trace s, consumeChoice_csN s⟩

/-! ### Ghost records -/

/-- The state with other ghost records: `TRACE` (R38) and the record of signals (R184). -/
def withRecords (tr : List BusEvent) (sg : List Signal) (s : State) : State := { s with trace := tr, signals := sg }

/-- With other records the operation answers the same, but for the records of a next state. It may write records (so a change of them does not
pass through as `PassesThrough` asks), but it looks at none. -/
def IgnoresRecords (op : State → Result) : Prop :=
  ∀ tr sg s, ∃ tr' sg', op (withRecords tr sg s) = andThen (op s) fun t => .next (withRecords tr' sg' t)

namespace IgnoresRecords

theorem next {g : State → State} (h : ∀ tr sg s, ∃ tr' sg', g (withRecords tr sg s) = withRecords tr' sg' (g s)) :
    IgnoresRecords fun s => .next (g s) := by
  intro tr sg s
  obtain ⟨tr', sg', hg⟩ := h tr sg s
  exact ⟨tr', sg', congrArg Host.Outcome.next hg⟩

theorem fault (r : Fault) : IgnoresRecords fun _ => .fault r := fun tr sg _ => ⟨tr, sg, rfl⟩

theorem ite {c : State → Prop} [DecidablePred c] {op op' : State → Result} (hc : ∀ tr sg s, c (withRecords tr sg s) ↔ c s)
    (h : IgnoresRecords op) (h' : IgnoresRecords op') : IgnoresRecords fun s => if c s then op s else op' s := by
  intro tr sg s
  by_cases hs : c s
  · simpa only [hc, hs, if_true] using h tr sg s
  · simpa only [hc, hs, if_false] using h' tr sg s

/-- A sequence ignores the records when both parts do; the second part may depend on the other fields of the first state (`hk`). -/
theorem andThen {op : State → Result} {k : State → State → Result} (h : IgnoresRecords op)
    (hk : ∀ tr sg s, k (withRecords tr sg s) = k s) (h' : ∀ s, IgnoresRecords (k s)) :
    IgnoresRecords fun s => Machine.andThen (op s) (k s) := by
  intro tr sg s
  obtain ⟨tr', sg', hop⟩ := h tr sg s
  simp only [hop, hk]
  cases op s with
  | next t => exact h' s tr' sg' t
  | fault r => exact ⟨tr, sg, rfl⟩
  | refused r => exact ⟨tr, sg, rfl⟩

end IgnoresRecords

/-! #### Commands -/

theorem releaseLock_ignoresRecords (a : Lock) : IgnoresRecords (releaseLock a) :=
  .ite (fun _ _ _ => .rfl) (.next fun _ _ _ => ⟨_, _, rfl⟩) (.fault _)

theorem writePixel_ignoresRecords (a : Lock) (k : Nat) (v : Pixel) : IgnoresRecords (writePixel a k v) :=
  .ite (fun _ _ _ => .rfl) (.fault _) (.ite (fun _ _ _ => .rfl) (.next fun _ _ _ => ⟨_, _, rfl⟩) (.fault _))

theorem writeEveryPixel_ignoresRecords (a : Lock) (v : Pixel) : IgnoresRecords (writeEveryPixel a v) :=
  .ite (fun _ _ _ => .rfl) (.fault _) (.next fun _ _ _ => ⟨_, _, rfl⟩)

theorem commandUnderLock_ignoresRecords {body : Lock → State → Result} (h : ∀ a, IgnoresRecords (body a)) :
    IgnoresRecords fun s => commandUnderLock (body (.prod s.port)) s := by
  have release (p : Nat) : IgnoresRecords fun t => andThen (releaseLock (.prod p) t) fun u => .next (completeCommand u) :=
    .andThen (releaseLock_ignoresRecords _) (fun _ _ _ => rfl) fun _ => .next fun _ _ _ => ⟨_, _, rfl⟩
  have locked : IgnoresRecords fun s => body (.prod s.port) (setLock (.prod s.port) s) :=
    fun tr sg s => h (.prod s.port) tr sg (setLock (.prod s.port) s)
  exact .ite (fun _ _ _ => .rfl) (.andThen locked (fun _ _ _ => rfl) fun s => release s.port) (.next fun _ _ _ => ⟨_, _, rfl⟩)

theorem dropCommand_ignoresRecords : IgnoresRecords dropCommand := .next fun _ _ _ => ⟨_, _, rfl⟩

theorem exec_ignoresRecords (i : Instr) : IgnoresRecords (exec i) := by
  cases i with
  | setpixel index color =>
    exact .ite (fun _ _ _ => .rfl) (.next fun _ _ _ => ⟨_, _, rfl⟩)
      (commandUnderLock_ignoresRecords fun a => writePixel_ignoresRecords a index.toNat color)
  | setall color => exact commandUnderLock_ignoresRecords fun a => writeEveryPixel_ignoresRecords a color
  | clear => exact commandUnderLock_ignoresRecords fun a => writeEveryPixel_ignoresRecords a Pixel.black
  | reserved00 => exact dropCommand_ignoresRecords
  | reserved04 _ => exact dropCommand_ignoresRecords
  | reserved08 _ => exact dropCommand_ignoresRecords
  | reserved10 _ => exact dropCommand_ignoresRecords
  | reserved20 _ => exact dropCommand_ignoresRecords
  | reserved40 _ => exact dropCommand_ignoresRecords
  | reserved80 _ => exact dropCommand_ignoresRecords

/-! #### Sequencer -/

theorem encodeOnePixel_ignoresRecords : IgnoresRecords encodeOnePixel := by
  intro tr sg s
  have hread : readPixel .tx (withRecords tr sg s).px (withRecords tr sg s) = readPixel .tx s.px s := rfl
  have hencode (p : Pixel) : encPixel (withRecords tr sg s).cfg p (withRecords tr sg s).wo (withRecords tr sg s).pl =
      encPixel s.cfg p s.wo s.pl := rfl
  refine ⟨tr, sg, ?_⟩
  simp only [encodeOnePixel, hread, hencode]
  cases readPixel .tx s.px s with
  | error f => rfl
  | ok p =>
    dsimp only
    cases encPixel s.cfg p s.wo s.pl with
    | error r => rfl
    | ok x => rfl

theorem phaseWrite_ignoresRecords (ready fail : Bool) : IgnoresRecords (phaseWrite ready fail) :=
  .ite (fun _ _ _ => .rfl) (.next fun _ _ _ => ⟨_, _, rfl⟩)
    (.ite (fun _ _ _ => .rfl) (.next fun _ _ _ => ⟨_, _, rfl⟩)
      (.ite (fun _ _ _ => .rfl) (.next fun _ _ _ => ⟨_, _, rfl⟩) (.next fun _ _ _ => ⟨_, _, rfl⟩)))

theorem sequencerStep_ignoresRecords (ready fail : Bool) : IgnoresRecords (sequencerStep ready fail) := by
  have idle : IgnoresRecords phaseIdle :=
    .ite (fun _ _ _ => .rfl) (.next fun _ _ _ => ⟨_, _, rfl⟩) (.next fun _ _ _ => ⟨_, _, rfl⟩)
  have acquire : IgnoresRecords phaseAcquire :=
    .ite (fun _ _ _ => .rfl) (.next fun _ _ _ => ⟨_, _, rfl⟩) (.next fun _ _ _ => ⟨_, _, rfl⟩)
  have encode : IgnoresRecords phaseEncode :=
    .ite (fun _ _ _ => .rfl) encodeOnePixel_ignoresRecords (.next fun _ _ _ => ⟨_, _, rfl⟩)
  have release : IgnoresRecords phaseRelease :=
    .andThen (releaseLock_ignoresRecords .tx) (fun _ _ _ => rfl) fun _ => .next fun _ _ _ => ⟨_, _, rfl⟩
  intro tr sg s
  have hphase : (withRecords tr sg s).phase = s.phase := rfl
  simp only [sequencerStep, hphase]
  cases s.phase with
  | idle => exact idle tr sg s
  | zerofill => exact ⟨_, _, rfl⟩
  | acquire => exact acquire tr sg s
  | encode => exact encode tr sg s
  | release => exact release tr sg s
  | select => exact ⟨_, _, rfl⟩
  | write => exact phaseWrite_ignoresRecords ready fail tr sg s
  | deselect => exact ⟨_, _, rfl⟩

/-! #### One step -/

theorem executeStep_ignoresRecords (p : Nat) : IgnoresRecords (executeStep p) := by
  intro tr sg s
  have hlatch : latch p (withRecords tr sg s) = latch p s := rfl
  simp only [executeStep, hlatch]
  cases latch p s with
  | none => exact ⟨_, _, rfl⟩
  | some w => exact exec_ignoresRecords (decode w) tr sg (selectPort p s)

theorem choiceStep_ignoresRecords (c : Choice) : IgnoresRecords (choiceStep c) := by
  cases c with
  | rst fb pl => exact .next fun _ _ _ => ⟨_, _, rfl⟩
  | issue p w => exact .ite (fun _ _ _ => .rfl) (.next fun _ _ _ => ⟨_, _, rfl⟩) (.next fun _ _ _ => ⟨_, _, rfl⟩)
  | execute p => exact executeStep_ignoresRecords p
  | sequencer ready fail => exact sequencerStep_ignoresRecords ready fail

theorem consumeChoice_withRecords (tr : List BusEvent) (sg : List Signal) (s : State) :
    consumeChoice (withRecords tr sg s) = withRecords tr sg (consumeChoice s) := by
  cases hs : s.sched <;> simp only [consumeChoice, withRecords, hs]

theorem step_ignoresRecords : IgnoresRecords step := by
  intro tr sg s
  have hchoice : nextChoice (withRecords tr sg s) = nextChoice s := rfl
  rw [step, hchoice, consumeChoice_withRecords]
  exact choiceStep_ignoresRecords (nextChoice s) tr sg (consumeChoice s)

/-- Settles O44: every operation of the step ignores the two records. -/
theorem ghostRecordsAreReadByNoRule : Obligations.GhostRecordsAreReadByNoRule := by
  unfold Obligations.GhostRecordsAreReadByNoRule
  intro s t tr sg h
  obtain ⟨tr', sg', hstep⟩ := step_ignoresRecords tr sg s
  rw [h, andThen_next] at hstep
  exact ⟨tr', sg', hstep⟩

end Sys2Proof.Machine
end

section
/-! PROOFS. The statements of 20_memory.md section 5 (R59, R60) and 30_encoding.md part 1 (R85): the payload map, and `COMPOSE` pointwise. -/

namespace Sys2Proof

/-! ### The payload map -/

/-- The groups of all pixels are numbered through, each with `S` slots (R59). -/
theorem Cfg.payloadOffset_eq (c : Cfg) (i ch j k : Nat) :
    c.payloadOffset i ch j k = c.preambleLen + (c.symbolsPerBit * (8 * (3 * i + ch) + j) + k) := by
  simp only [Cfg.payloadOffset, Cfg.pixelLen, Cfg.channelLen]
  ring

/-- The pixel region holds `24 * N` groups of `S` symbols (R60). -/
theorem Cfg.payloadLen_eq (c : Cfg) : c.payloadLen = c.preambleLen + c.symbolsPerBit * (24 * c.ledCount) := by
  simp only [Cfg.payloadLen, Cfg.pixelLen, Cfg.channelLen]
  ring

/-- A group number and a slot below `S` are found again in the offset they give. -/
theorem mul_add_injective {n q q' k k' : Nat} (hk : k < n) (hk' : k' < n) (h : n * q + k = n * q' + k') : q = q' ∧ k = k' := by
  have hn : 0 < n := Nat.zero_lt_of_lt hk
  constructor
  · simpa [Nat.mul_add_div hn, Nat.div_eq_of_lt hk, Nat.div_eq_of_lt hk'] using congrArg (· / n) h
  · simpa [Nat.mul_add_mod, Nat.mod_eq_of_lt hk, Nat.mod_eq_of_lt hk'] using congrArg (· % n) h

/-- A slot lies in its group: the offset is inside as soon as the group number is. -/
theorem mul_add_lt_mul {n q m k : Nat} (hk : k < n) (hq : q < m) : n * q + k < n * m :=
  calc n * q + k < n * q + n := Nat.add_lt_add_left hk _
    _ = n * (q + 1) := (Nat.mul_succ n q).symm
    _ ≤ n * m := Nat.mul_le_mul_left n hq

theorem Cfg.payloadOffset_lt {c : Cfg} {i ch j k : Nat} (hi : i < c.ledCount) (hch : ch < 3) (hj : j < 8) (hk : k < c.symbolsPerBit) :
    c.payloadOffset i ch j k < c.payloadLen := by
  rw [c.payloadOffset_eq, c.payloadLen_eq]
  exact Nat.add_lt_add_left (mul_add_lt_mul hk (by omega)) _

/-- Every offset of the pixel region is that of its group's pixel, channel and bit, and of its slot. -/
theorem Cfg.exists_payloadOffset_eq {c : Cfg} (hS : 1 ≤ c.symbolsPerBit) {o : Nat} (hP : c.preambleLen ≤ o) (hL : o < c.payloadLen) :
    ∃ i ch j k, i < c.ledCount ∧ ch < 3 ∧ j < 8 ∧ k < c.symbolsPerBit ∧ c.payloadOffset i ch j k = o := by
  obtain ⟨d, rfl⟩ := Nat.exists_eq_add_of_le hP
  rw [c.payloadLen_eq] at hL
  have hgroup : d / c.symbolsPerBit < 24 * c.ledCount := Nat.div_lt_of_lt_mul (Nat.lt_of_add_lt_add_left hL)
  refine ⟨d / c.symbolsPerBit / 24, d / c.symbolsPerBit / 8 % 3, d / c.symbolsPerBit % 8, d % c.symbolsPerBit,
    by omega, by omega, by omega, Nat.mod_lt d hS, ?_⟩
  have hdigits : 8 * (3 * (d / c.symbolsPerBit / 24) + d / c.symbolsPerBit / 8 % 3) + d / c.symbolsPerBit % 8 =
      d / c.symbolsPerBit := by omega
  rw [c.payloadOffset_eq, hdigits, Nat.div_add_mod]

theorem Cfg.payloadOffset_injective {c : Cfg} {i ch j k i' ch' j' k' : Nat} (hch : ch < 3) (hj : j < 8) (hk : k < c.symbolsPerBit)
    (hch' : ch' < 3) (hj' : j' < 8) (hk' : k' < c.symbolsPerBit) (h : c.payloadOffset i ch j k = c.payloadOffset i' ch' j' k') :
    i = i' ∧ ch = ch' ∧ j = j' ∧ k = k' := by
  rw [c.payloadOffset_eq, c.payloadOffset_eq] at h
  obtain ⟨hgroup, hslot⟩ := mul_add_injective hk hk' (Nat.add_left_cancel h)
  omega

/-- Settles O53: the group number and the slot are quotient and remainder of the offset by `S`. -/
theorem payloadMapIsABijection : Obligations.PayloadMapIsABijection := by
  unfold Obligations.PayloadMapIsABijection
  rintro c ⟨_, _, hS, _, _⟩
  refine ⟨fun i ch j k hi hch hj hk => ⟨?_, Cfg.payloadOffset_lt hi hch hj hk⟩, fun o => Cfg.exists_payloadOffset_eq hS,
    fun _ _ _ _ _ _ _ _ => Cfg.payloadOffset_injective⟩
  rw [c.payloadOffset_eq]
  exact Nat.le_add_right _ _

namespace Machine

/-! ### `COMPOSE` pointwise -/

/-- In a concatenation of pieces of one length, a place is found by its piece and its place in the piece. -/
theorem getElem?_flatMap_of_length {α β : Type} {f : α → List β} {n : Nat} (hf : ∀ x, (f x).length = n) {xs : List α} {i : Nat} {x : α}
    (hi : xs[i]? = some x) {k : Nat} (hk : k < n) : (xs.flatMap f)[n * i + k]? = (f x)[k]? := by
  induction xs generalizing i with
  | nil => simp at hi
  | cons y ys ih =>
    rw [List.flatMap_cons]
    cases i with
    | zero =>
      obtain rfl : y = x := by simpa using hi
      rw [Nat.mul_zero, Nat.zero_add, List.getElem?_append_left (by rw [hf]; exact hk)]
    | succ i =>
      have hskip : n * (i + 1) + k = (f y).length + (n * i + k) := by rw [hf, Nat.mul_succ]; omega
      rw [hskip, List.getElem?_append_right (Nat.le_add_right _ _), Nat.add_sub_cancel_left]
      exact ih (by simpa using hi)

/-- Slot `k` of group `j` of a channel field is the symbol of bit `7 - j` (R83, R111). -/
theorem channelSymbols_getElem? (c : Cfg) (v : Byte) {j k : Nat} (hj : j < 8) (hk : k < c.symbolsPerBit) :
    (channelSymbols c v)[c.symbolsPerBit * j + k]? = some (if v.getLsbD (7 - j) then c.sym1 else c.sym0) := by
  rw [channelSymbols, getElem?_flatMap_of_length (fun _ => encBit_length c _) (List.getElem?_range hj) hk, encBit,
    List.getElem?_replicate_of_lt hk]

/-- The channels of a pixel stand in wire order, each in a field of its own (R53, R82). -/
theorem pixelSymbols_getElem? (c : Cfg) {p : Pixel} {ch : Nat} {v : Byte} (hv : [p.g, p.r, p.b][ch]? = some v) {k : Nat}
    (hk : k < c.channelLen) : (pixelSymbols c p)[c.channelLen * ch + k]? = (channelSymbols c v)[k]? := by
  have hp : pixelSymbols c p = [p.g, p.r, p.b].flatMap (channelSymbols c) := by simp [pixelSymbols_eq]
  rw [hp, getElem?_flatMap_of_length (channelSymbols_length c) hv hk]

/-- Settles O54: the pixel's field, in it the channel's, in it the bit's group. -/
theorem composeFollowsThePayloadMap : Obligations.ComposeFollowsThePayloadMap := by
  unfold Obligations.ComposeFollowsThePayloadMap
  refine fun c fb _ => ⟨fun o ho => ?_, fun i ch j k p v hp hv hj hk => ?_⟩
  · rw [compose, List.getElem?_append_left (by simpa using ho), List.getElem?_replicate_of_lt ho]
    rfl
  · have hch : ch < 3 := (List.getElem?_eq_some_iff.1 hv).1
    have hbit : c.symbolsPerBit * j + k < c.channelLen := by
      rw [Cfg.channelLen, Nat.mul_comm 8]
      exact mul_add_lt_mul hk hj
    have hchannel : c.channelLen * ch + (c.symbolsPerBit * j + k) < c.pixelLen := by
      rw [Cfg.pixelLen, Nat.mul_comm 3]
      exact mul_add_lt_mul hbit hch
    have hoffset : c.payloadOffset i ch j k =
        c.preambleLen + (c.pixelLen * i + (c.channelLen * ch + (c.symbolsPerBit * j + k))) := by
      simp only [Cfg.payloadOffset, Nat.add_assoc]
    rw [compose, hoffset, List.getElem?_append_right (by simp), List.length_replicate, Nat.add_sub_cancel_left,
      getElem?_flatMap_of_length (pixelSymbols_length c) hp hchannel, pixelSymbols_getElem? c hv hbit,
      channelSymbols_getElem? c v hj hk]

/-- Only the two symbol values stand in a pixel's field (R85). -/
theorem mem_pixelSymbols {c : Cfg} {p : Pixel} {y : Symbol} (h : y ∈ pixelSymbols c p) : y = c.sym0 ∨ y = c.sym1 := by
  obtain ⟨ch, _, hch⟩ := List.mem_flatMap.1 h
  exact mem_channelSymbols hch

/-- Settles O55: `compose_length`, and the two parts of `COMPOSE` one by one. -/
theorem completeFrameHasItsLengthAndSymbols : Obligations.CompleteFrameHasItsLengthAndSymbols := by
  unfold Obligations.CompleteFrameHasItsLengthAndSymbols
  refine fun c fb hfb => ⟨?_, fun y hy => ?_, fun y hy => ?_⟩
  · simp only [compose_length, hfb, Cfg.pixelLen, Cfg.channelLen, Nat.mul_assoc]
  · rw [compose, List.take_left' (List.length_replicate)] at hy
    exact List.eq_of_mem_replicate hy
  · rw [compose, List.drop_left' (List.length_replicate)] at hy
    obtain ⟨p, _, hp⟩ := List.mem_flatMap.1 hy
    exact mem_pixelSymbols hp

end Machine

end Sys2Proof
end

section
/-! PROOFS. The statements of 20_memory.md sections 4, 6 and 7 about one step: a command executed twice (R58), a command that pends (R63), and
what is stable while the lock is held (R56, R66) and while a frame is transmitted (R69). -/

namespace Sys2Proof.Machine

open Sys2Proof.Safety

/-! ### What each command answers -/

/-- A `SETPIXEL` out of range is rejected, whatever the lock is (R131). -/
theorem exec_setpixel_of_outside {index : BitVec 16} {s : State} (h : s.cfg.ledCount ≤ index.toNat) (color : Pixel) :
    exec (.setpixel index color) s =
      .next { s with signals := s.signals ++ [.indexOutOfRange index.toNat], cmd := s.cmd.set s.port none } := by
  simp only [exec, execSetpixel, h, if_true]
  rfl

/-- A `SETPIXEL` in range under a free lock writes its pixel, if `FB` stores it (R131). -/
theorem exec_setpixel_of_free {index : BitVec 16} {s : State} (h : index.toNat < s.cfg.ledCount) (hf : s.lock = .free) (color : Pixel) :
    exec (.setpixel index color) s =
      if index.toNat < s.fb.length then .next { s with fb := s.fb.set index.toNat color, cmd := s.cmd.set s.port none }
      else .fault .pixelIndexOutside := by
  by_cases hk : index.toNat < s.fb.length <;>
    simp [exec, execSetpixel, Nat.not_le.2 h, commandUnderLock, hf, writePixel, hk, releaseLock, completeCommand, setLatch, setLock]

/-- `SETALL` under a free lock fills `FB` (R132). -/
theorem exec_setall_of_free {s : State} (hf : s.lock = .free) (color : Pixel) :
    exec (.setall color) s = .next { s with fb := List.replicate s.cfg.ledCount color, cmd := s.cmd.set s.port none } := by
  simp [exec, execSetall, commandUnderLock, hf, writeEveryPixel, releaseLock, completeCommand, setLatch, setLock]

/-- `CLEAR` is `SETALL` of the black pixel (R98). -/
theorem exec_clear_eq_exec_setall (s : State) : exec .clear s = exec (.setall Pixel.black) s := rfl

/-- Settles O15: with its latch full again, the command meets its own effect: it waits or is dropped as before, it is rejected as before, or it
writes the pixels that stand there. -/
theorem commandsAreIdempotent : Obligations.CommandsAreIdempotent := by
  unfold Obligations.CommandsAreIdempotent
  intro i s t h
  rcases exec_cases_by_command h with ⟨_, rfl⟩ | ⟨index, color, rfl, hout, rfl⟩ | ⟨hf, index, color, rfl, hin, rfl⟩ |
    ⟨hf, v, hi, _⟩ | rfl
  · exact ⟨_, h, rfl⟩
  · exact ⟨_, exec_setpixel_of_outside (by exact hout) color, rfl⟩
  · rw [exec_setpixel_of_free hin hf] at h
    split at h
    · next hk =>
      refine ⟨_, (exec_setpixel_of_free (by exact hin) (by exact hf) color).trans (if_pos (by simpa using hk)), ?_⟩
      simp only [List.set_set]
    · cases h
  · obtain ⟨color, hcolor⟩ : ∃ color, exec i = exec (.setall color) := by
      obtain rfl | rfl := hi
      · exact ⟨v, rfl⟩
      · exact ⟨Pixel.black, funext exec_clear_eq_exec_setall⟩
    rw [hcolor, exec_setall_of_free hf] at h
    cases h
    exact ⟨_, (congrFun hcolor _).trans (exec_setall_of_free (by exact hf) color), rfl⟩
  · exact ⟨_, h, rfl⟩

/-! ### Pending commands -/

/-- The latches depend on `cmd` only. -/
theorem latch_congr {s t : State} {p : Nat} (h : t.cmd[p]? = s.cmd[p]?) : latch p t = latch p s := by
  rw [latch, latch, h]

/-- The sequencer writes no latch (R37). -/
theorem sequencerStep_cmd {ready fail : Bool} {s t : State} (h : sequencerStep ready fail s = .next t) : t.cmd = s.cmd := by
  rcases sequencerStep_cases h with ⟨_, _, rfl⟩ | ⟨_, _, rfl⟩ | ⟨_, rfl⟩ | ⟨_, _, rfl⟩ | ⟨_, _, rfl⟩ | ⟨_, _, _, _, _, _, _, _, rfl⟩ |
    ⟨_, _, rfl⟩ | ⟨_, _, rfl⟩ | ⟨_, rfl⟩ | ⟨_, _, _, rfl⟩ | ⟨_, _, _, _, rfl⟩ | ⟨_, _, _, _, rfl⟩ | ⟨_, _, _, _, rfl⟩ | ⟨_, rfl⟩ <;>
    rfl

/-- Settles O21: an issue finds the port busy, and every other step leaves the port's latch. -/
theorem pendingCommandStaysUntilExecuted : Obligations.PendingCommandStaysUntilExecuted := by
  unfold Obligations.PendingCommandStaysUntilExecuted
  intro s t p w h hw hne hno
  suffices hcmd : t.cmd[p]? = s.cmd[p]? from (latch_congr hcmd).trans hw
  rcases step_next_cases h with ⟨_, _, hc, _⟩ | ⟨q, _, _, ⟨hready, rfl⟩ | ⟨_, rfl⟩⟩ | ⟨q, hc, ⟨_, rfl⟩ | ⟨_, _, hx⟩⟩ | ⟨_, _, _, hseq⟩
  · rw [hc] at hno
    cases hno
  · have hqp : q ≠ p := by
      rintro rfl
      rw [(cmdReady_iff.1 hready).2] at hw
      cases hw
    rw [setLatch_cmd, List.getElem?_set_ne hqp, consumeChoice_cmd]
  · rw [consumeChoice_cmd]
  · rw [consumeChoice_cmd]
  · have hpq : p ≠ q := fun hpq => hne (hpq ▸ hc)
    obtain ⟨_, _, cmd, rfl, hothers⟩ := exec_frame hx
    simpa using hothers p hpq
  · rw [sequencerStep_cmd hseq, consumeChoice_cmd]

/-! ### The snapshot and the transmitted payload -/

/-- Settles O40: a step that changes `FB` is a reset or finds the lock free. -/
theorem frameBufferIsStableDuringTheSnapshot : Obligations.FrameBufferIsStableDuringTheSnapshot := by
  unfold Obligations.FrameBufferIsStableDuringTheSnapshot
  intro s t hlock hno h
  by_contra hne
  rcases frameBufferChangesOnlyByCommands s t h hne with hreset | ⟨_, _, _, _, hfree, _⟩
  · simp [hno] at hreset
  · simp [hlock] at hfree

/-- Settles O41: a step that changes `PL` is a reset or the sequencer's in `ZEROFILL` or `ENCODE`, where nothing is transmitted. -/
theorem payloadIsStableDuringTransmission : Obligations.PayloadIsStableDuringTransmission := by
  unfold Obligations.PayloadIsStableDuringTransmission
  intro s t htransmit hno h
  by_contra hne
  rcases payloadIsPrivateToTheSequencer s t h hne with hreset | ⟨_, hp | hp⟩
  · simp [hno] at hreset
  · simp [hp, transmitting, taskState] at htransmit
  · simp [hp, transmitting, taskState] at htransmit

end Sys2Proof.Machine
end

section
/-! PROOFS. Every step keeps the invariant of states (R161), and a state that meets it makes its step (R163): what the frame theorem (R71) needs of
the state. -/

namespace Sys2Proof.Safety

open Sys2Proof.Machine

/-! ### Steps that spare the sequencer -/

/-- What any step but the sequencer's and a reset does: it leaves the sequencer's registers, keeps the shape of `FB` and of the latches, leaves `FB`
while the sequencer owns the lock (R24, R56), and only extends the record of signals (R184). -/
structure SparesSequencer (s t : State) : Prop where
  frame : t = { s with fb := t.fb, cmd := t.cmd, signals := t.signals, port := t.port, sched := t.sched, draws := t.draws }
  fbLength : s.fb.length = s.cfg.ledCount → t.fb.length = s.cfg.ledCount
  fbOwned : s.lock = .tx → t.fb = s.fb
  cmdLength : t.cmd.length = s.cmd.length
  signals : s.signals <+: t.signals

theorem sparesSequencer_refl (s : State) : SparesSequencer s s := ⟨rfl, id, fun _ => rfl, rfl, List.prefix_refl _⟩

theorem sparesSequencer_consumeChoice (s : State) : SparesSequencer s (consumeChoice s) := by
  refine ⟨?_, by simp, by simp, by simp, by simp⟩
  unfold consumeChoice
  split <;> rfl

theorem sparesSequencer_setLatch (p : Nat) (v : Option CmdWord) (s : State) : SparesSequencer s (setLatch p v s) :=
  ⟨rfl, id, fun _ => rfl, List.length_set, List.prefix_refl _⟩

theorem sparesSequencer_of_exec {i : Instr} {p : Nat} {s t : State} (h : exec i (selectPort p s) = .next t) : SparesSequencer s t := by
  rcases exec_cases h with ⟨_, rfl⟩ | ⟨_, rfl⟩ | ⟨hf, _, _, _, rfl⟩ | ⟨hf, _, rfl⟩ | rfl
  · exact ⟨rfl, id, fun _ => rfl, rfl, List.prefix_refl _⟩
  · exact ⟨rfl, id, fun _ => rfl, List.length_set, List.prefix_append _ _⟩
  · exact ⟨rfl, fun hl => List.length_set.trans hl, fun htx => by simp [htx] at hf, List.length_set, List.prefix_refl _⟩
  · exact ⟨rfl, fun _ => List.length_replicate, fun htx => by simp [htx] at hf, List.length_set, List.prefix_refl _⟩
  · exact ⟨rfl, id, fun _ => rfl, List.length_set, List.prefix_refl _⟩

/-- A step is a reset, or the sequencer's, or one that spares the sequencer. -/
theorem step_cases_by_sequencer {s t : State} (h : step s = .next t) :
    (∃ fb pl, nextChoice s = .rst fb pl ∧ t = applyReset fb pl (consumeChoice s)) ∨
    (isReset (nextChoice s) = false ∧ ∃ ready fail, sequencerStep ready fail (consumeChoice s) = .next t) ∨
    (isReset (nextChoice s) = false ∧ SparesSequencer (consumeChoice s) t) := by
  rcases step_next_cases h with hreset | ⟨p, w, hc, ⟨_, rfl⟩ | ⟨_, rfl⟩⟩ | ⟨p, hc, ⟨_, rfl⟩ | ⟨_, _, hx⟩⟩ | ⟨ready, fail, hc, hseq⟩
  · exact .inl hreset
  · exact .inr (.inr ⟨by rw [hc]; rfl, sparesSequencer_setLatch p (some w) _⟩)
  · exact .inr (.inr ⟨by rw [hc]; rfl, sparesSequencer_refl _⟩)
  · exact .inr (.inr ⟨by rw [hc]; rfl, sparesSequencer_refl _⟩)
  · exact .inr (.inr ⟨by rw [hc]; rfl, sparesSequencer_of_exec hx⟩)
  · exact .inr (.inl ⟨by rw [hc]; rfl, ready, fail, hseq⟩)

theorem Inv.of_sparesSequencer {s t : State} (hs : Inv s) (h : SparesSequencer s t) : Inv t := by
  obtain ⟨hframe, hlength, howned, hcmd, _⟩ := h
  have hfb (hcrit : inCriticalSection s.phase = true) : t.fb = s.fb := howned (hs.lockTx.2 hcrit)
  rw [hframe]
  exact { hs with
    fbLength := hlength hs.fbLength
    cmdLength := hcmd.trans hs.cmdLength
    atEncode := fun hp => hfb (congrArg inCriticalSection hp) ▸ hs.atEncode hp
    atRelease := fun hp => hfb (congrArg inCriticalSection hp) ▸ hs.atRelease hp }

/-! ### Launch and reset -/

theorem inv_resetWith {cfg : Cfg} {fbInit : List Pixel} {plInit : Memory} (h : LaunchOk cfg fbInit plInit) :
    Inv (State.resetWith cfg fbInit plInit) where
  cfgWf := h.1
  fbLength := h.2.1
  cmdLength := List.length_replicate
  plWf := h.2.2.1
  plInside := h.2.2.2
  pxBound := Nat.zero_le _
  woBound := Nat.zero_le _
  rkBound := Nat.zero_le _
  timerBound := Nat.zero_le _
  lockTx := ⟨nofun, nofun⟩
  lockNotProd := nofun
  csLow := ⟨fun h => absurd h (by decide : (1#1 : BitVec 1) ≠ 0#1), nofun⟩
  atAcquire := nofun
  atEncode := nofun
  atRelease := nofun
  atTransmit := nofun
  traceForm := ⟨[], rfl⟩

/-- A reset leaves a launch with the contents it drew (R211, R213). -/
theorem Inv.of_reset {s : State} (hs : Inv s) (fb : List Pixel) (pl : List Symbol) : Inv (applyReset fb pl s) := by
  have hin : ∀ x ∈ Memory.writeAll [] 0 (pl.take s.cfg.payloadLen), x.1 < s.cfg.payloadLen := fun x hx => by
    have hlen := pl.length_take_le s.cfg.payloadLen
    rcases Memory.mem_writeAll hx with ⟨_, hlt⟩ | hnil
    · omega
    · cases hnil
  have hlaunch : LaunchOk s.cfg (fitPixels s.cfg.ledCount fb) (Memory.writeAll [] 0 (pl.take s.cfg.payloadLen)) :=
    ⟨hs.cfgWf, fitPixels_length _ _, Memory.writeAll_keeps_wf Memory.wf_nil _ _, hin⟩
  exact (inv_resetWith hlaunch).of_sparesSequencer ⟨rfl, fun _ => fitPixels_length _ _, nofun, rfl, List.nil_prefix⟩

/-! ### The payload in `ZEROFILL` and `ENCODE` -/

/-- A run of writes over the whole payload leaves exactly its symbols. -/
theorem symbols_writeAll_whole {m : Memory} (h : Memory.wf m) {vs : List Symbol} {n : Nat} (hn : vs.length = n) :
    Memory.symbols (Memory.writeAll m 0 vs) n = vs := by
  subst hn
  rw [Memory.symbols_writeAll h (Nat.le_of_eq (Nat.zero_add _))]
  simp

/-- A run of writes inside the payload leaves nothing outside it. -/
theorem mem_writeAll_lt {m : Memory} {o n : Nat} {vs : List Symbol} (hm : ∀ x ∈ m, x.1 < n) (hn : o + vs.length ≤ n) :
    ∀ x ∈ Memory.writeAll m o vs, x.1 < n := by
  intro x hx
  rcases Memory.mem_writeAll hx with ⟨_, hlt⟩ | hx
  · exact Nat.lt_of_lt_of_le hlt hn
  · exact hm x hx

/-- The offset after `i` pixels cuts the payload after those pixels (R154). -/
theorem take_compose_eq (c : Cfg) {fb : List Pixel} {i : Nat} (hi : i ≤ fb.length) :
    (compose c fb).take (c.preambleLen + c.pixelLen * i) = compose c (fb.take i) := by
  rw [List.prefix_iff_eq_take.1 (compose_take c fb i), compose_length, List.length_take, Nat.min_eq_left hi, Nat.mul_comm i]

/-- One more pixel fits below the payload's end (R154). -/
theorem pixel_fits (c : Cfg) {i : Nat} (hi : i < c.ledCount) : c.preambleLen + c.pixelLen * i + c.pixelLen ≤ c.payloadLen := by
  have hmul : c.pixelLen * (i + 1) ≤ c.ledCount * c.pixelLen := by
    rw [Nat.mul_comm c.ledCount]
    exact Nat.mul_le_mul_left _ hi
  rw [Cfg.payloadLen, Nat.add_assoc, ← Nat.mul_succ]
  exact Nat.add_le_add_left hmul _

/-! ### The open frame in `WRITE` and `DESELECT` -/

/-- One more symbol goes onto the open frame (R157). -/
theorem openFrame_take_succ {s : State} {k : Nat} (hk : k < s.cfg.payloadLen) :
    openFrame ((payload s).take (k + 1)) = openFrame ((payload s).take k) ++ [.sym (Memory.read s.pl k)] := by
  rw [List.take_add_one, payload, Memory.symbols_getElem?, if_pos hk]
  simp [openFrame]

theorem Inv.openTrace {s : State} (hs : Inv s) (hsel : selected s.phase = true) :
    ∃ frames : List (List Symbol), s.trace = frames.flatMap closedFrame ++ openFrame ((payload s).take s.rk) := by
  simpa [hsel] using hs.traceForm

/-! ### Each phase keeps the invariant -/

section Phases

variable {s : State} (hs : Inv s)

include hs

theorem Inv.idleTick : Inv { s with timer := s.timer - 1 } :=
  { hs with timerBound := (Nat.sub_le _ _).trans hs.timerBound }

theorem Inv.idleDone (hp : s.phase = .idle) : Inv { s with phase := .zerofill } :=
  { hs with
    lockTx := by simpa [hp, inCriticalSection] using hs.lockTx
    csLow := by simpa [hp, selected] using hs.csLow
    atAcquire := nofun
    atEncode := nofun
    atRelease := nofun
    atTransmit := nofun
    traceForm := by simpa [hp, selected] using hs.traceForm }

theorem Inv.zerofill (hp : s.phase = .zerofill) :
    Inv { s with pl := Memory.writeAll s.pl 0 (List.replicate s.cfg.payloadLen ZSYM), wo := s.cfg.preambleLen, phase := .acquire } :=
  { hs with
    plWf := Memory.writeAll_keeps_wf hs.plWf _ _
    plInside := mem_writeAll_lt hs.plInside (by simp)
    woBound := Nat.le_add_right _ _
    lockTx := by simpa [hp, inCriticalSection] using hs.lockTx
    csLow := by simpa [hp, selected] using hs.csLow
    atAcquire := fun _ => ⟨rfl, symbols_writeAll_whole hs.plWf List.length_replicate⟩
    atEncode := nofun
    atRelease := nofun
    atTransmit := nofun
    traceForm := by simpa [hp, selected] using hs.traceForm }

theorem Inv.acquire (hp : s.phase = .acquire) : Inv { s with lock := .tx, px := 0, phase := .encode } := by
  obtain ⟨hwo, hpl⟩ := hs.atAcquire hp
  have hpreamble : (compose s.cfg s.fb).take s.cfg.preambleLen = List.replicate s.cfg.preambleLen ZSYM := by
    rw [compose, List.take_left' List.length_replicate]
  have hsplit : payload s = (compose s.cfg s.fb).take s.wo ++ List.replicate (s.cfg.payloadLen - s.wo) ZSYM := by
    rw [hpl, hwo, hpreamble, List.replicate_append_replicate, Nat.add_sub_cancel' (hwo ▸ hs.woBound)]
  exact { hs with
    pxBound := Nat.zero_le _
    lockTx := by simp [inCriticalSection]
    lockNotProd := nofun
    csLow := by simpa [hp, selected] using hs.csLow
    atAcquire := nofun
    atEncode := fun _ => ⟨hwo, hsplit⟩
    atRelease := nofun
    atTransmit := nofun
    traceForm := by simpa [hp, selected] using hs.traceForm }

/-- The `ENCODE` loop's invariant (R154): the pixel goes where the composed part of the payload ends. -/
theorem Inv.encodePixel (hp : s.phase = .encode) {p : Pixel} (hpx : s.fb[s.px]? = some p) :
    Inv { s with pl := Memory.writeAll s.pl s.wo (pixelSymbols s.cfg p), wo := s.wo + s.cfg.pixelLen, px := s.px + 1 } := by
  obtain ⟨hwo, hpl⟩ := hs.atEncode hp
  have hlt : s.px < s.fb.length := (List.getElem?_eq_some_iff.1 hpx).1
  have hfits : s.wo + s.cfg.pixelLen ≤ s.cfg.payloadLen := hwo ▸ pixel_fits s.cfg (hs.fbLength ▸ hlt)
  have hwo' : s.wo + s.cfg.pixelLen = s.cfg.preambleLen + s.cfg.pixelLen * (s.px + 1) := by rw [hwo, Nat.mul_succ, Nat.add_assoc]
  have hprefix : (compose s.cfg s.fb).take (s.wo + s.cfg.pixelLen) = (compose s.cfg s.fb).take s.wo ++ pixelSymbols s.cfg p := by
    rw [hwo', hwo, take_compose_eq _ hlt, take_compose_eq _ hlt.le, compose_take_succ _ hpx]
  have hlength : ((compose s.cfg s.fb).take s.wo).length = s.wo := by
    rw [List.length_take, compose_length_of_full hs.fbLength, Nat.min_eq_left hs.woBound]
  have hsplit : Memory.symbols (Memory.writeAll s.pl s.wo (pixelSymbols s.cfg p)) s.cfg.payloadLen =
      (compose s.cfg s.fb).take (s.wo + s.cfg.pixelLen) ++
        List.replicate (s.cfg.payloadLen - (s.wo + s.cfg.pixelLen)) ZSYM := by
    rw [Memory.symbols_writeAll hs.plWf (by rwa [pixelSymbols_length]), show Memory.symbols s.pl s.cfg.payloadLen = payload s from rfl,
      hpl, List.take_left' hlength, hprefix, pixelSymbols_length, ← List.drop_drop, List.drop_left' hlength, List.drop_replicate,
      Nat.sub_sub]
  exact { hs with
    plWf := Memory.writeAll_keeps_wf hs.plWf _ _
    plInside := mem_writeAll_lt hs.plInside (by rwa [pixelSymbols_length])
    pxBound := hs.fbLength ▸ hlt
    woBound := hfits
    atAcquire := fun h => by cases hp.symm.trans h
    atEncode := fun _ => ⟨hwo', hsplit⟩
    atRelease := fun h => by cases hp.symm.trans h
    atTransmit := fun h => by simp [hp, transmitting, taskState] at h
    traceForm := by simpa [hp, selected] using hs.traceForm }

theorem Inv.encodeDone (hp : s.phase = .encode) (hpx : s.cfg.ledCount ≤ s.px) : Inv { s with phase := .release } := by
  obtain ⟨hwo, hpl⟩ := hs.atEncode hp
  have hend : s.wo = s.cfg.payloadLen := by
    rw [hwo, Nat.le_antisymm hs.pxBound hpx, Cfg.payloadLen, Nat.mul_comm]
  have hwhole : payload s = compose s.cfg s.fb := by
    rw [hpl, hend, Nat.sub_self, ← compose_length_of_full hs.fbLength]
    simp
  exact { hs with
    lockTx := by simpa [hp, inCriticalSection] using hs.lockTx
    csLow := by simpa [hp, selected] using hs.csLow
    atAcquire := nofun
    atEncode := nofun
    atRelease := fun _ => hwhole
    atTransmit := nofun
    traceForm := by simpa [hp, selected] using hs.traceForm }

theorem Inv.release (hp : s.phase = .release) : Inv { s with lock := .free, phase := .select } :=
  { hs with
    lockTx := by simp [inCriticalSection]
    lockNotProd := nofun
    csLow := by simpa [hp, selected] using hs.csLow
    atAcquire := nofun
    atEncode := nofun
    atRelease := nofun
    atTransmit := fun _ => ⟨s.fb, hs.fbLength, hs.atRelease hp⟩
    traceForm := by simpa [hp, selected] using hs.traceForm }

theorem Inv.select (hp : s.phase = .select) :
    Inv { s with csN := 0#1, trace := s.trace ++ [.select], rk := 0, phase := .write } := by
  obtain ⟨frames, htrace⟩ := hs.traceForm
  exact { hs with
    rkBound := Nat.zero_le _
    lockTx := by simpa [hp, inCriticalSection] using hs.lockTx
    csLow := by simp [selected]
    atAcquire := nofun
    atEncode := nofun
    atRelease := nofun
    atTransmit := fun _ => hs.atTransmit (by rw [hp]; rfl)
    traceForm := ⟨frames, by simp [htrace, hp, selected, openFrame]⟩ }

theorem Inv.push (hp : s.phase = .write) (hrk : s.rk < s.cfg.payloadLen) :
    Inv { s with trace := s.trace ++ [.sym (Memory.read s.pl s.rk)], rk := s.rk + 1 } := by
  have hsel : selected s.phase = true := by rw [hp]; rfl
  obtain ⟨frames, htrace⟩ := hs.openTrace hsel
  have htrace' : s.trace ++ [.sym (Memory.read s.pl s.rk)] =
      frames.flatMap closedFrame ++ if selected s.phase then openFrame ((payload s).take (s.rk + 1)) else [] := by
    rw [htrace, if_pos hsel, openFrame_take_succ hrk, List.append_assoc]
  exact { hs with
    rkBound := hrk
    traceForm := ⟨frames, htrace'⟩ }

theorem Inv.writeDone (hp : s.phase = .write) : Inv { s with phase := .deselect } :=
  { hs with
    lockTx := by simpa [hp, inCriticalSection] using hs.lockTx
    csLow := by simpa [hp, selected] using hs.csLow
    atAcquire := nofun
    atEncode := nofun
    atRelease := nofun
    atTransmit := fun _ => hs.atTransmit (by rw [hp]; rfl)
    traceForm := hs.openTrace (by rw [hp]; rfl) }

theorem Inv.deselect (hp : s.phase = .deselect) :
    Inv { s with csN := 1#1, trace := s.trace ++ [.deselect], timer := s.cfg.refreshInterval, phase := .idle } := by
  obtain ⟨frames, htrace⟩ := hs.openTrace (by rw [hp]; rfl)
  exact { hs with
    timerBound := Nat.le_refl _
    lockTx := by simpa [hp, inCriticalSection] using hs.lockTx
    csLow := by simp [selected]
    atAcquire := nofun
    atEncode := nofun
    atRelease := nofun
    atTransmit := nofun
    traceForm := ⟨frames ++ [(payload s).take s.rk], by simp [htrace, selected, closedFrame]⟩ }

/-- Every step of the sequencer keeps the invariant, phase by phase. -/
theorem Inv.of_sequencerStep {ready fail : Bool} {t : State} (h : sequencerStep ready fail s = .next t) : Inv t := by
  rcases sequencerStep_cases h with ⟨_, _, rfl⟩ | ⟨hp, _, rfl⟩ | ⟨hp, rfl⟩ | ⟨_, _, rfl⟩ | ⟨hp, _, rfl⟩ |
    ⟨hp, hlt, p, pl, wo, _, hpx, he, rfl⟩ | ⟨hp, hge, rfl⟩ | ⟨hp, _, rfl⟩ | ⟨hp, rfl⟩ | ⟨_, _, _, rfl⟩ | ⟨hp, _, _, _, rfl⟩ |
    ⟨hp, _, _, hrk, rfl⟩ | ⟨hp, _, _, _, rfl⟩ | ⟨hp, rfl⟩
  · exact hs.idleTick
  · exact hs.idleDone hp
  · exact hs.zerofill hp
  · exact hs
  · exact hs.acquire hp
  · have hfits : s.wo + s.cfg.pixelLen ≤ s.cfg.payloadLen := (hs.atEncode hp).1 ▸ pixel_fits s.cfg hlt
    rw [encPixel_of_fits hfits] at he
    cases he
    exact hs.encodePixel hp hpx
  · exact hs.encodeDone hp hge
  · exact hs.release hp
  · exact hs.select hp
  · exact hs
  · exact (hs.writeDone hp).of_sparesSequencer ⟨rfl, id, fun _ => rfl, rfl, List.prefix_append _ _⟩
  · exact hs.push hp hrk
  · exact hs.writeDone hp
  · exact hs.deselect hp

end Phases

theorem Inv.of_step {s t : State} (hs : Inv s) (h : step s = .next t) : Inv t := by
  have hc : Inv (consumeChoice s) := hs.of_sparesSequencer (sparesSequencer_consumeChoice s)
  rcases step_cases_by_sequencer h with ⟨fb, pl, _, rfl⟩ | ⟨_, _, _, hseq⟩ | ⟨_, hspares⟩
  · exact hc.of_reset fb pl
  · exact hc.of_sequencerStep hseq
  · exact hc.of_sparesSequencer hspares

/-! ### A state that meets the invariant makes its step -/

/-- With all its pixels in `FB`, a command is never stopped (R138). -/
theorem exec_answers (i : Instr) {s : State} (hfb : s.fb.length = s.cfg.ledCount) : ∃ t, exec i s = .next t := by
  have fills (color : Pixel) : ∃ t, exec (.setall color) s = .next t := by
    by_cases hf : s.lock = .free
    · exact ⟨_, exec_setall_of_free hf color⟩
    · exact ⟨_, commandUnderLock_of_taken hf⟩
  cases i with
  | setpixel index color =>
    by_cases hin : index.toNat < s.cfg.ledCount
    · by_cases hf : s.lock = .free
      · exact ⟨_, (exec_setpixel_of_free hin hf color).trans (if_pos (hfb ▸ hin))⟩
      · exact ⟨_, (if_neg (Nat.not_le.2 hin)).trans (commandUnderLock_of_taken hf)⟩
    · exact ⟨_, exec_setpixel_of_outside (Nat.le_of_not_lt hin) color⟩
  | setall color => exact fills color
  | clear => exact fills Pixel.black
  | reserved00 => exact ⟨_, rfl⟩
  | reserved04 _ => exact ⟨_, rfl⟩
  | reserved08 _ => exact ⟨_, rfl⟩
  | reserved10 _ => exact ⟨_, rfl⟩
  | reserved20 _ => exact ⟨_, rfl⟩
  | reserved40 _ => exact ⟨_, rfl⟩
  | reserved80 _ => exact ⟨_, rfl⟩

/-- Where the sequencer reads `FB` or releases the lock it owns it, and where it encodes, the pixel fits (R161). -/
theorem Inv.sequencerStep_answers {s : State} (hs : Inv s) (ready fail : Bool) : ∃ t, Machine.sequencerStep ready fail s = .next t := by
  unfold Machine.sequencerStep
  split
  case h_1 => unfold phaseIdle; split <;> exact ⟨_, rfl⟩
  case h_2 => exact ⟨_, rfl⟩
  case h_3 => unfold phaseAcquire; split <;> exact ⟨_, rfl⟩
  case h_4 hp =>
    have hlock : s.lock = .tx := hs.lockTx.2 (by rw [hp]; rfl)
    unfold phaseEncode
    split
    · next hpx =>
      have hfits : s.wo + s.cfg.pixelLen ≤ s.cfg.payloadLen := (hs.atEncode hp).1 ▸ pixel_fits s.cfg hpx
      have hread := readPixel_of_owner hlock (List.getElem?_eq_getElem (hs.fbLength ▸ hpx))
      exact ⟨_, by simp only [encodeOnePixel, hread, encPixel_of_fits hfits]; rfl⟩
    · exact ⟨_, rfl⟩
  case h_5 hp =>
    have hlock : s.lock = .tx := hs.lockTx.2 (by rw [hp]; rfl)
    exact ⟨_, by rw [phaseRelease, releaseLock_of_owner hlock, andThen_next]⟩
  case h_6 => exact ⟨_, rfl⟩
  case h_7 =>
    unfold phaseWrite
    split
    · exact ⟨_, rfl⟩
    · split
      · exact ⟨_, rfl⟩
      · split <;> exact ⟨_, rfl⟩
  case h_8 => exact ⟨_, rfl⟩

theorem Inv.step_answers {s : State} (hs : Inv s) : ∃ t, Machine.step s = .next t := by
  have hc : Inv (consumeChoice s) := hs.of_sparesSequencer (sparesSequencer_consumeChoice s)
  unfold Machine.step
  cases nextChoice s with
  | rst fb pl => exact ⟨_, rfl⟩
  | issue p w =>
    simp only [choiceStep, issueStep]
    split <;> exact ⟨_, rfl⟩
  | execute p =>
    simp only [choiceStep, executeStep]
    split
    · exact exec_answers _ hc.fbLength
    · exact ⟨_, rfl⟩
  | sequencer ready fail => exact hc.sequencerStep_answers ready fail

end Sys2Proof.Safety
end

section
/-! PROOFS. The frame theorem (R71): every step keeps `TRACE`, the snapshots and the ends of the `WRITE` phases aligned (`HistInv`), and the frames of
an aligned history are `COMPOSE` of their own snapshots. -/

namespace Sys2Proof.Safety

open Sys2Proof.Machine

/-! ### The two records without the choice that reset looks at -/

/-- The snapshots after a step that is no reset (R66). -/
def snapsTaken (s t : State) (snaps : List (List Pixel)) : List (List Pixel) :=
  if s.lock ≠ .tx ∧ t.lock = .tx then snaps ++ [s.fb] else snaps

/-- The ends after a step that is no reset (R157, R158). -/
def endsReached (s t : State) (ends : List (Option Nat)) : List (Option Nat) :=
  if s.phase = .write ∧ t.phase = .deselect then ends ++ [failureOf s t] else ends

theorem snapsAfter_eq_snapsTaken {s : State} (hr : isReset (nextChoice s) = false) (t : State) (snaps : List (List Pixel)) :
    snapsAfter s t snaps = snapsTaken (consumeChoice s) t snaps := by
  simp [snapsAfter, snapsTaken, hr]

theorem endsAfter_eq_endsReached {s : State} (hr : isReset (nextChoice s) = false) (t : State) (ends : List (Option Nat)) :
    endsAfter s t ends = endsReached (consumeChoice s) t ends := by
  simp [endsAfter, endsReached, failureOf, hr]

/-! ### Steps that are quiet on the bus and for the history -/

/-- The value is a snapshot for the state: `FB` while the lock is held, the payload's source while it is transmitted (R66, R161). -/
def IsSnapshot (s : State) (snap : List Pixel) : Prop :=
  (inCriticalSection s.phase = true → snap = s.fb) ∧ (transmitting s.phase = true → payload s = compose s.cfg snap)

/-- What stands in `TRACE` after the frames that have ended (R38). -/
def openPart (s : State) : List BusEvent := if s.phase = .write then openFrame ((payload s).take s.rk) else []

/-- The step emits nothing, takes no snapshot, ends no `WRITE`, and keeps what is a snapshot. -/
structure Quiet (s t : State) : Prop where
  cfg : t.cfg = s.cfg
  trace : t.trace = s.trace
  openPart : openPart t = openPart s
  signals : s.signals <+: t.signals
  lock : t.lock = .tx → s.lock = .tx
  underWay : underWay t.phase = underWay s.phase
  deselect : t.phase = .deselect ↔ s.phase = .deselect
  snapshot : ∀ snap, IsSnapshot s snap → IsSnapshot t snap

section QuietSteps

variable {s t : State} {snaps : List (List Pixel)} {ends : List (Option Nat)}

theorem snapsTaken_of_lock (h : t.lock = .tx → s.lock = .tx) : snapsTaken s t snaps = snaps := if_neg fun ⟨hs, ht⟩ => hs (h ht)

theorem endsReached_of_phase (h : s.phase = .write → t.phase ≠ .deselect) : endsReached s t ends = ends :=
  if_neg fun ⟨hs, ht⟩ => h hs ht

theorem quiet_of_sparesSequencer (hs : Inv s) (h : SparesSequencer s t) : Quiet s t := by
  obtain ⟨hframe, _, howned, _, hsignals⟩ := h
  have hfb (hcrit : inCriticalSection s.phase = true) : t.fb = s.fb := howned (hs.lockTx.2 hcrit)
  rw [hframe]
  exact ⟨rfl, rfl, rfl, hsignals, id, rfl, .rfl, fun _ ⟨hcurrent, hpayload⟩ => ⟨fun hc => (hcurrent hc).trans (hfb hc).symm, hpayload⟩⟩

/-- With device-select high before and after, no frame is open. -/
theorem quiet_of_not_selected (hcfg : t.cfg = s.cfg) (htrace : t.trace = s.trace) (hsignals : t.signals = s.signals)
    (hlock : t.lock = .tx → s.lock = .tx) (hu : underWay t.phase = underWay s.phase) (hs : selected s.phase = false)
    (ht : selected t.phase = false) (hsnap : ∀ snap, IsSnapshot s snap → IsSnapshot t snap) : Quiet s t := by
  have hwrite {u : State} (hu : selected u.phase = false) : u.phase ≠ .write := fun h => by simp [h, selected] at hu
  have hdeselect {u : State} (hu : selected u.phase = false) : u.phase ≠ .deselect := fun h => by simp [h, selected] at hu
  refine ⟨hcfg, htrace, ?_, hsignals ▸ List.prefix_refl _, hlock, hu, iff_of_false (hdeselect ht) (hdeselect hs), hsnap⟩
  rw [openPart, openPart, if_neg (hwrite ht), if_neg (hwrite hs)]

end QuietSteps

/-! ### Each kind of step keeps the invariant of histories -/

/-- The bus events of the frames that have ended. -/
def endedEvents (c : Cfg) (snaps : List (List Pixel)) (ends : List (Option Nat)) : List BusEvent :=
  (List.zipWith (frameOf c) snaps ends).flatMap closedFrame

theorem endedEvents_snap (c : Cfg) {snaps : List (List Pixel)} {ends : List (Option Nat)} (h : snaps.length = ends.length)
    (snap : List Pixel) : endedEvents c (snaps ++ [snap]) ends = endedEvents c snaps ends := by
  have hzip : List.zipWith (frameOf c) (snaps ++ [snap]) (ends ++ []) = List.zipWith (frameOf c) snaps ends := by
    rw [List.zipWith_append h, List.zipWith_nil_right, List.append_nil]
  rw [List.append_nil] at hzip
  rw [endedEvents, hzip, endedEvents]

/-- The end of a cycle adds the frame of that cycle's snapshot. -/
theorem endedEvents_end (c : Cfg) {snaps : List (List Pixel)} {ends : List (Option Nat)} {snap : List Pixel}
    (h : snaps.length = ends.length + 1) (hlast : snaps.getLast? = some snap) (cut : Option Nat) :
    endedEvents c snaps (ends ++ [cut]) = endedEvents c snaps ends ++ closedFrame (frameOf c snap cut) := by
  obtain ⟨before, rfl⟩ := List.getLast?_eq_some_iff.1 hlast
  have hlength : before.length = ends.length := by simpa using h
  rw [endedEvents_snap c hlength, endedEvents, List.zipWith_append hlength]
  simp [endedEvents]

section Step

variable {s t : State} {snaps : List (List Pixel)} {ends : List (Option Nat)} (hh : HistInv ⟨s, snaps, ends⟩)

include hh

theorem HistInv.trace_eq (hp : s.phase ≠ .deselect) : s.trace = endedEvents s.cfg snaps ends ++ openPart s := hh.trace hp

/-- While a cycle is under way its snapshot is the newest, and the only one without an end. -/
theorem HistInv.exists_snapshot (hu : underWay s.phase = true) :
    ∃ snap, snaps.getLast? = some snap ∧ snaps.length = ends.length + 1 ∧ IsSnapshot s snap := by
  obtain ⟨snap, hlast, hsnap⟩ := hh.current hu
  have haligned := hh.aligned
  rw [if_pos hu] at haligned
  exact ⟨snap, hlast, haligned, hsnap⟩

theorem HistInv.of_quiet (ht : Inv t) (h : Quiet s t) : HistInv ⟨t, snaps, ends⟩ where
  inv := ht
  aligned := by rw [h.underWay]; exact hh.aligned
  current hu := by
    obtain ⟨snap, hlast, hsnap⟩ := hh.current (h.underWay ▸ hu)
    exact ⟨snap, hlast, h.snapshot snap hsnap⟩
  trace hp := by
    change t.trace = endedEvents t.cfg snaps ends ++ openPart t
    rw [h.trace, h.cfg, h.openPart]
    exact hh.trace_eq fun hd => hp (h.deselect.2 hd)
  traceAtDeselect hp := by
    change t.trace ++ [.deselect] = endedEvents t.cfg snaps ends
    rw [h.trace, h.cfg]
    exact hh.traceAtDeselect (h.deselect.1 hp)
  cuts k hk := by
    obtain ⟨hcan, hmem⟩ := hh.cuts k hk
    exact ⟨h.cfg ▸ hcan, h.signals.subset hmem⟩

/-- The step that takes the lock takes the snapshot (R66). -/
theorem HistInv.acquire (hp : s.phase = .acquire) : HistInv ⟨{ s with lock := .tx, px := 0, phase := .encode }, snaps ++ [s.fb], ends⟩ := by
  have haligned : snaps.length = ends.length := by simpa [hp, underWay, inCriticalSection] using hh.aligned
  have htrace : s.trace = endedEvents s.cfg (snaps ++ [s.fb]) ends := by
    rw [endedEvents_snap _ haligned]
    simpa [openPart, hp] using hh.trace_eq (by simp [hp])
  exact {
    inv := hh.inv.acquire hp
    aligned := by simp [haligned, underWay, inCriticalSection]
    current := fun _ => ⟨s.fb, by simp, fun _ => rfl, nofun⟩
    trace := fun _ => htrace.trans (List.append_nil _).symm
    traceAtDeselect := nofun
    cuts := hh.cuts }

theorem HistInv.select (hp : s.phase = .select) :
    HistInv ⟨{ s with csN := 0#1, trace := s.trace ++ [.select], rk := 0, phase := .write }, snaps, ends⟩ := by
  obtain ⟨snap, hlast, haligned, _, hpayload⟩ := hh.exists_snapshot (by rw [hp]; rfl)
  have htrace : s.trace = endedEvents s.cfg snaps ends := by simpa [openPart, hp] using hh.trace_eq (by simp [hp])
  exact {
    inv := hh.inv.select hp
    aligned := haligned
    current := fun _ => ⟨snap, hlast, nofun, fun _ => hpayload (by rw [hp]; rfl)⟩
    trace := fun _ => congrArg (· ++ [.select]) htrace
    traceAtDeselect := nofun
    cuts := hh.cuts }

theorem HistInv.push (hp : s.phase = .write) (hrk : s.rk < s.cfg.payloadLen) :
    HistInv ⟨{ s with trace := s.trace ++ [.sym (Memory.read s.pl s.rk)], rk := s.rk + 1 }, snaps, ends⟩ := by
  have htrace : s.trace ++ [.sym (Memory.read s.pl s.rk)] =
      endedEvents s.cfg snaps ends ++ if s.phase = .write then openFrame ((payload s).take (s.rk + 1)) else [] := by
    rw [hh.trace_eq (by simp [hp]), openPart, if_pos hp, if_pos hp, openFrame_take_succ hrk, List.append_assoc]
  exact { hh with
    inv := hh.inv.push hp hrk
    trace := fun _ => htrace
    traceAtDeselect := fun hd => by cases hp.symm.trans hd }

/-- The end of `WRITE` (R157, R158): the open frame is what its snapshot and its cut say. -/
theorem HistInv.writeEnd (hp : s.phase = .write) {signals : List Signal} {cut : Option Nat} (hsignals : s.signals <+: signals)
    (hframe : ∀ snap, payload s = compose s.cfg snap → frameOf s.cfg snap cut = (payload s).take s.rk)
    (hcut : ∀ k, cut = some k → s.cfg.busCanFail = true ∧ Signal.busWriteFailure k ∈ signals) :
    HistInv ⟨{ s with signals := signals, phase := .deselect }, snaps, ends ++ [cut]⟩ := by
  obtain ⟨snap, hlast, haligned, _, hpayload⟩ := hh.exists_snapshot (by rw [hp]; rfl)
  have htrace : s.trace ++ [.deselect] = endedEvents s.cfg snaps (ends ++ [cut]) := by
    rw [endedEvents_end _ haligned hlast, hframe snap (hpayload (by rw [hp]; rfl)), hh.trace_eq (by simp [hp]), openPart, if_pos hp,
      List.append_assoc, closedFrame]
  exact {
    inv := (hh.inv.writeDone hp).of_sparesSequencer ⟨rfl, id, fun _ => rfl, rfl, hsignals⟩
    aligned := by simp [haligned, underWay, inCriticalSection]
    current := nofun
    trace := fun hd => absurd rfl hd
    traceAtDeselect := fun _ => htrace
    cuts := fun k hk => by
      rcases List.mem_append.1 hk with hk | hk
      · obtain ⟨hcan, hmem⟩ := hh.cuts k hk
        exact ⟨hcan, hsignals.subset hmem⟩
      · exact hcut k (List.mem_singleton.1 hk).symm }

theorem HistInv.deselect (hp : s.phase = .deselect) :
    HistInv ⟨{ s with csN := 1#1, trace := s.trace ++ [.deselect], timer := s.cfg.refreshInterval, phase := .idle }, snaps, ends⟩ where
  inv := hh.inv.deselect hp
  aligned := by simpa [hp, underWay, inCriticalSection] using hh.aligned
  current := nofun
  trace _ := (hh.traceAtDeselect hp).trans (List.append_nil _).symm
  traceAtDeselect := nofun
  cuts := hh.cuts

/-- Every step of the sequencer keeps the invariant of histories. -/
theorem HistInv.of_sequencerStep {ready fail : Bool} (h : sequencerStep ready fail s = .next t) :
    HistInv ⟨t, snapsTaken s t snaps, endsReached s t ends⟩ := by
  have kept (hlock : t.lock = .tx → s.lock = .tx) (hphase : s.phase = .write → t.phase ≠ .deselect)
      (ht : HistInv ⟨t, snaps, ends⟩) : HistInv ⟨t, snapsTaken s t snaps, endsReached s t ends⟩ := by
    rwa [snapsTaken_of_lock hlock, endsReached_of_phase hphase]
  have quiet (hq : Quiet s t) : HistInv ⟨t, snapsTaken s t snaps, endsReached s t ends⟩ :=
    kept hq.lock (fun hw hd => by cases hw.symm.trans (hq.deselect.1 hd)) (hh.of_quiet (hh.inv.of_sequencerStep h) hq)
  have ended {cut : Option Nat} (hlock : t.lock = .tx → s.lock = .tx) (hphase : s.phase = .write ∧ t.phase = .deselect)
      (hcut : failureOf s t = cut) (ht : HistInv ⟨t, snaps, ends ++ [cut]⟩) :
      HistInv ⟨t, snapsTaken s t snaps, endsReached s t ends⟩ := by
    rwa [snapsTaken_of_lock hlock, endsReached, if_pos hphase, hcut]
  rcases sequencerStep_cases h with ⟨_, _, rfl⟩ | ⟨hp, _, rfl⟩ | ⟨hp, rfl⟩ | ⟨_, _, rfl⟩ | ⟨hp, hfree, rfl⟩ |
    ⟨hp, _, _, _, _, _, _, _, rfl⟩ | ⟨hp, _, rfl⟩ | ⟨hp, _, rfl⟩ | ⟨hp, rfl⟩ | ⟨_, _, _, rfl⟩ | ⟨hp, _, hcan, _, rfl⟩ |
    ⟨hp, _, _, hrk, rfl⟩ | ⟨hp, _, _, hrk, rfl⟩ | ⟨hp, rfl⟩
  · exact quiet ⟨rfl, rfl, rfl, List.prefix_refl _, id, rfl, .rfl, fun _ => id⟩
  · exact quiet (quiet_of_not_selected rfl rfl rfl id (by rw [hp]; rfl) (by rw [hp]; rfl) rfl fun _ _ => ⟨nofun, nofun⟩)
  · exact quiet (quiet_of_not_selected rfl rfl rfl id (by rw [hp]; rfl) (by rw [hp]; rfl) rfl fun _ _ => ⟨nofun, nofun⟩)
  · exact quiet ⟨rfl, rfl, rfl, List.prefix_refl _, id, rfl, .rfl, fun _ => id⟩
  · have hsnaps : snapsTaken s { s with lock := .tx, px := 0, phase := .encode } snaps = snaps ++ [s.fb] :=
      if_pos ⟨by simp [hfree], rfl⟩
    rw [hsnaps, endsReached_of_phase fun hw => by cases hp.symm.trans hw]
    exact hh.acquire hp
  · have hsel : selected s.phase = false := by rw [hp]; rfl
    exact quiet (quiet_of_not_selected rfl rfl rfl id rfl hsel hsel fun _ ⟨hcurrent, _⟩ =>
      ⟨hcurrent, fun ht => by simp [hp, transmitting, taskState] at ht⟩)
  · exact quiet (quiet_of_not_selected rfl rfl rfl id (by rw [hp]; rfl) (by rw [hp]; rfl) rfl fun _ ⟨hcurrent, _⟩ =>
      ⟨fun _ => hcurrent (by rw [hp]; rfl), nofun⟩)
  · have hpayload := hh.inv.atRelease hp
    exact quiet (quiet_of_not_selected rfl rfl rfl nofun (by rw [hp]; rfl) (by rw [hp]; rfl) rfl fun snap ⟨hcurrent, _⟩ =>
      ⟨nofun, fun _ => (hcurrent (by rw [hp]; rfl)).symm ▸ hpayload⟩)
  · exact kept id (fun _ => nofun) (hh.select hp)
  · exact quiet ⟨rfl, rfl, rfl, List.prefix_refl _, id, rfl, .rfl, fun _ => id⟩
  · refine ended id ⟨hp, rfl⟩ (failureOf_of_append rfl) (hh.writeEnd hp (List.prefix_append _ _) (fun snap hsnap => ?_) fun k hk => ?_)
    · rw [frameOf, hsnap]
    · obtain rfl : s.rk = k := Option.some.inj hk
      exact ⟨hcan, by simp⟩
  · exact kept id (fun _ hd => by cases hp.symm.trans hd) (hh.push hp hrk)
  · refine ended id ⟨hp, rfl⟩ (failureOf_of_eq rfl) (hh.writeEnd hp (List.prefix_refl _) (fun snap hsnap => ?_) nofun)
    rw [frameOf, ← hsnap, List.take_of_length_le (by rwa [payload_length])]
  · exact kept id (fun _ => nofun) (hh.deselect hp)

end Step

/-- A block in `IDLE` with nothing emitted meets the invariant of histories with an empty history: so after launch and after reset. -/
theorem histInv_of_inv {s : State} (hs : Inv s) (hp : s.phase = .idle) (htrace : s.trace = []) : HistInv ⟨s, [], []⟩ where
  inv := hs
  aligned := by rw [hp]; rfl
  current hu := by cases (congrArg underWay hp).symm.trans hu
  trace _ := by rw [hp]; exact htrace
  traceAtDeselect hd := by cases hp.symm.trans hd
  cuts := nofun

theorem histInv_launch {cfg : Cfg} {fbInit : List Pixel} {plInit : Memory} (sched : List Choice) (h : LaunchOk cfg fbInit plInit) :
    HistInv (launch cfg fbInit plInit sched) :=
  histInv_of_inv ((inv_resetWith h).of_sparesSequencer ⟨rfl, id, fun _ => rfl, rfl, List.prefix_refl _⟩) rfl rfl

theorem HistInv.of_next {h h' : Hist} (hh : HistInv h) (hnext : h.next = some h') : HistInv h' := by
  obtain ⟨t, hstep, rfl⟩ := Hist.next_eq_some_iff.1 hnext
  have hspares := sparesSequencer_consumeChoice h.st
  have hinv : Inv (consumeChoice h.st) := hh.inv.of_sparesSequencer hspares
  have hc : HistInv ⟨consumeChoice h.st, h.snaps, h.ends⟩ := hh.of_quiet hinv (quiet_of_sparesSequencer hh.inv hspares)
  rcases step_cases_by_sequencer hstep with ⟨fb, pl, hr, rfl⟩ | ⟨hr, _, _, hseq⟩ | ⟨hr, ht⟩
  · have hreset : isReset (nextChoice h.st) = true := by rw [hr]; rfl
    rw [snapsAfter_of_reset hreset, endsAfter_of_reset hreset]
    exact histInv_of_inv (hinv.of_reset fb pl) rfl rfl
  · rw [snapsAfter_eq_snapsTaken hr, endsAfter_eq_endsReached hr]
    exact hc.of_sequencerStep hseq
  · have hq := quiet_of_sparesSequencer hinv ht
    rw [snapsAfter_eq_snapsTaken hr, endsAfter_eq_endsReached hr, snapsTaken_of_lock hq.lock,
      endsReached_of_phase fun hw hd => by cases hw.symm.trans (hq.deselect.1 hd)]
    exact hc.of_quiet (hinv.of_sparesSequencer ht) hq

/-! ### The frames of an aligned history -/

/-- Each ended frame is its own cycle's, and cut only by a failure that was signalled (R71, R158). -/
theorem HistInv.frame_of_getElem? {h : Hist} (hh : HistInv h) {j : Nat} {ys : List Symbol} (hj : h.frames[j]? = some ys) :
    ∃ snap cut, h.snaps[j]? = some snap ∧ h.ends[j]? = some cut ∧ ys = frameOf h.st.cfg snap cut ∧
      ∀ k, cut = some k → h.st.cfg.busCanFail = true ∧ Signal.busWriteFailure k ∈ h.st.signals := by
  obtain ⟨snap, cut, hsnap, hend, hys⟩ := Hist.frames_getElem? hj
  exact ⟨snap, cut, hsnap, hend, hys, fun k hk => hh.cuts k (hk ▸ List.mem_of_getElem? hend)⟩

/-- The frame open in `WRITE` is begun from the snapshot after those of the ended frames. -/
theorem HistInv.openPart_eq {h : Hist} (hh : HistInv h) :
    openPart h.st = [] ∨ ∃ (ys : List Symbol) (snap : List Pixel), h.snaps[h.frames.length]? = some snap ∧
      ys <+: compose h.st.cfg snap ∧ openPart h.st = openFrame ys := by
  by_cases hp : h.st.phase = .write
  · obtain ⟨snap, hlast, haligned, _, hpayload⟩ := HistInv.exists_snapshot hh (by rw [hp]; rfl)
    have hlength : h.frames.length = h.snaps.length - 1 := by simp [Hist.frames, haligned]
    refine .inr ⟨(payload h.st).take h.st.rk, snap, ?_, ?_, if_pos hp⟩
    · rw [hlength, ← List.getLast?_eq_getElem?, hlast]
    · rw [← hpayload (by rw [hp]; rfl)]
      exact List.take_prefix _ _
  · exact .inl (if_neg hp)

/-- In `DESELECT` the newest ended frame is still open. -/
theorem HistInv.frames_of_deselect {h : Hist} (hh : HistInv h) (hp : h.st.phase = .deselect) :
    ∃ frames ys, h.frames = frames ++ [ys] ∧ h.st.trace = frames.flatMap closedFrame ++ openFrame ys := by
  have htrace := hh.traceAtDeselect hp
  rcases List.eq_nil_or_concat' h.frames with hnil | ⟨frames, ys, hframes⟩
  · simp [hnil] at htrace
  · rw [hframes, List.flatMap_append, List.flatMap_singleton, closedFrame, ← List.append_assoc] at htrace
    exact ⟨frames, ys, hframes, List.append_cancel_right htrace⟩

theorem HistInv.framesAreSnapshots {h : Hist} (hh : HistInv h) : FramesAreSnapshots h := by
  by_cases hp : h.st.phase = .deselect
  · obtain ⟨frames, ys, hframes, htrace⟩ := hh.frames_of_deselect hp
    refine ⟨frames, openFrame ys, htrace, fun j zs hj => hh.frame_of_getElem? ?_, .inr ?_⟩
    · rw [hframes, List.getElem?_append_left (List.getElem?_eq_some_iff.1 hj).1, hj]
    · obtain ⟨snap, cut, hsnap, _, rfl, _⟩ := hh.frame_of_getElem? (j := frames.length) (ys := ys) (by simp [hframes])
      exact ⟨_, snap, hsnap, frameOf_prefix _ _ _, rfl⟩
  · exact ⟨h.frames, openPart h.st, hh.trace hp, fun _ _ => hh.frame_of_getElem?, hh.openPart_eq⟩

/-! ### Runs -/

theorem HistInv.next_answers {h : Hist} (hh : HistInv h) : ∃ h', h.next = some h' := by
  obtain ⟨t, hstep⟩ := hh.inv.step_answers
  exact ⟨_, Hist.next_eq_some_iff.2 ⟨t, hstep, rfl⟩⟩

theorem HistInv.after_answers {h : Hist} (hh : HistInv h) (n : Nat) : ∃ h', h.after n = some h' ∧ HistInv h' := by
  induction n generalizing h with
  | zero => exact ⟨h, rfl, hh⟩
  | succ n ih =>
    obtain ⟨h₁, hnext⟩ := hh.next_answers
    obtain ⟨h', hafter, hh'⟩ := ih (hh.of_next hnext)
    exact ⟨h', by rw [Hist.after, hnext]; exact hafter, hh'⟩

/-- Settles O47: `HistInv` holds at launch, every step keeps it, and it says where each frame comes from. -/
theorem framesOnTheBusAreSnapshots : Obligations.FramesOnTheBusAreSnapshots := by
  unfold Obligations.FramesOnTheBusAreSnapshots
  refine ⟨fun _ _ => HistInv.of_next, fun _ => HistInv.framesAreSnapshots, fun _ _ _ sched n hlaunch => ?_⟩
  obtain ⟨h, hafter, hh⟩ := (histInv_launch sched hlaunch).after_answers n
  exact ⟨h, hafter, hh.framesAreSnapshots⟩

end Sys2Proof.Safety
end

section
/-! PROOFS. The statements of 30_encoding.md part 1 (R87): reading a complete frame back. -/

namespace Sys2Proof.Machine

/-- A byte is the concatenation of its bits, most significant first (R83). -/
theorem bits_append (v : Byte) :
    BitVec.ofBool (v.getLsbD 7) ++ BitVec.ofBool (v.getLsbD 6) ++ BitVec.ofBool (v.getLsbD 5) ++ BitVec.ofBool (v.getLsbD 4) ++
      BitVec.ofBool (v.getLsbD 3) ++ BitVec.ofBool (v.getLsbD 2) ++ BitVec.ofBool (v.getLsbD 1) ++ BitVec.ofBool (v.getLsbD 0) = v := by
  revert v
  decide

/-- The first symbol of a group tells the bit, since the two symbols differ (R115). -/
theorem channelSymbols_getD_beq {c : Cfg} (hc : c.wf) (v : Byte) {j : Nat} (hj : j < 8) :
    ((channelSymbols c v).getD (c.symbolsPerBit * j) ZSYM == c.sym1) = v.getLsbD (7 - j) := by
  obtain ⟨_, _, hS, hne, _⟩ := hc
  have hslot := channelSymbols_getElem? c v hj hS
  rw [Nat.add_zero] at hslot
  rw [List.getD_eq_getElem?_getD, hslot, Option.getD_some]
  cases v.getLsbD (7 - j) with
  | false => simpa using hne
  | true => simp

theorem decByte_channelSymbols {c : Cfg} (hc : c.wf) (v : Byte) : decByte c (channelSymbols c v) = some v := by
  have hbit {j : Nat} (hj : j < 8) := channelSymbols_getD_beq hc v hj
  have hfield : (channelSymbols c v).length = c.channelLen ∧ ∀ y ∈ channelSymbols c v, y = c.sym0 ∨ y = c.sym1 :=
    ⟨channelSymbols_length c v, fun _ => mem_channelSymbols⟩
  simp only [decByte, if_pos hfield, hbit, Nat.reduceLT, Nat.reduceSub, bits_append]

theorem decPixel_pixelSymbols {c : Cfg} (hc : c.wf) (p : Pixel) : decPixel c (pixelSymbols c p) = some p := by
  have hg := channelSymbols_length c p.g
  have hr := channelSymbols_length c p.r
  have hgr : (channelSymbols c p.g ++ channelSymbols c p.r).length = 2 * c.channelLen := by simp; omega
  rw [decPixel, pixelSymbols_eq, List.drop_left' hgr, List.append_assoc, List.take_left' hg, List.drop_left' hg, List.take_left' hr]
  simp only [decByte_channelSymbols hc]

/-- The pixel region, pixel by pixel. -/
theorem decPixels_flatMap_pixelSymbols {c : Cfg} (hc : c.wf) (fb : List Pixel) :
    decPixels c fb.length (fb.flatMap (pixelSymbols c)) = some fb := by
  induction fb with
  | nil => rfl
  | cons p ps ih =>
    have hp := pixelSymbols_length c p
    rw [List.length_cons, decPixels, List.flatMap_cons, List.take_left' hp, List.drop_left' hp, decPixel_pixelSymbols hc, ih]

/-- Settles O58: behind the preamble, each pixel's field gives the pixel back. -/
theorem completeFrameReadsBack : Obligations.CompleteFrameReadsBack := by
  unfold Obligations.CompleteFrameReadsBack
  intro c fb hc hfb
  have hpreamble : (List.replicate c.preambleLen ZSYM).length = c.preambleLen := List.length_replicate
  rw [decFrame, if_pos, compose, List.drop_left' hpreamble, ← hfb, decPixels_flatMap_pixelSymbols hc]
  refine ⟨compose_length_of_full hfb, ?_⟩
  rw [compose, List.take_left' hpreamble]
  exact fun _ => List.eq_of_mem_replicate

end Sys2Proof.Machine
end

section
/-! PROOFS. The statements of 30_encoding.md part 2 (R90 to R98): the command word, its opcode table, and what a word executes as. -/

namespace Sys2Proof

/-! ### The command word and its fields (R90) -/

theorem colorField_packWord (op : BitVec 8) (index : BitVec 16) (c : Pixel) : colorField (packWord op index c) = c := by
  unfold colorField packWord
  rw [BitVec.extractLsb'_append_eq_of_le (Nat.le_add_left 8 8), BitVec.extractLsb'_append_eq_of_le (Nat.le_refl 8),
    BitVec.extractLsb'_append_eq_of_le (Nat.le_refl 8)]
  iterate 3 rw [BitVec.extractLsb'_append_eq_right]

/-- A command word is the concatenation of its fields. -/
theorem packWord_fields (w : CmdWord) : packWord (opField w) (indexField w) (colorField w) = w := by
  unfold packWord opField indexField colorField
  iterate 4 rw [BitVec.extractLsb'_append_extractLsb'_eq_extractLsb' (by rfl)]
  exact BitVec.extractLsb'_eq_self

/-- Masking works field by field. -/
theorem packWord_and_packWord (op op' : BitVec 8) (index index' : BitVec 16) (c c' : Pixel) :
    packWord op index c &&& packWord op' index' c' =
      packWord (op &&& op') (index &&& index') ⟨c.g &&& c'.g, c.r &&& c'.r, c.b &&& c'.b⟩ := by
  unfold packWord
  rw [← BitVec.and_append, ← BitVec.and_append, ← BitVec.and_append, ← BitVec.and_append]

/-- The mask of a whole field keeps it. -/
theorem and_wholeField (x : BitVec 8) : x &&& 0xFF#8 = x := BitVec.and_allOnes

/-! ### The opcode table (R93) -/

/-- A row with a mask and a match of the opcode covers the words whose opcode they select. -/
theorem covers_iff_opField (bits mask : BitVec 8) (w : CmdWord) :
    Row.covers ⟨bits ++ 0#40, mask ++ 0#40⟩ w = true ↔ opField w &&& mask = bits := by
  rw [Row.covers, beq_iff_eq]
  conv_lhs => rw [← packWord_fields w]
  rw [packWord_and_opMask, BitVec.append_left_inj]

/-- The row of a single opcode. -/
theorem covers_iff_opcode (bits : BitVec 8) (w : CmdWord) : Row.covers ⟨bits ++ 0#40, 0xFF#8 ++ 0#40⟩ w = true ↔ opField w = bits := by
  rw [covers_iff_opField, and_wholeField]

/-- Every row of the table is such a row: its mask covers `op` only (R95). -/
theorem row_covers_iff (i : Instr) (w : CmdWord) :
    i.row.covers w = true ↔ opField w &&& opField i.row.mask = opField i.row.bits := by
  have hrow : ∀ r ∈ opcodeTable, r = ⟨opField r.bits ++ 0#40, opField r.mask ++ 0#40⟩ := by decide
  conv_lhs => rw [hrow _ (row_mem_opcodeTable i)]
  exact covers_iff_opField _ _ _

theorem row_covers_congr {w w' : CmdWord} (h : opField w = opField w') (i : Instr) : i.row.covers w = true ↔ i.row.covers w' = true := by
  rw [row_covers_iff, row_covers_iff, h]

/-- A word of two rows would make their matches agree wherever both masks are set; the matches of two rows of the table never do. -/
theorem row_eq_of_covers {r r' : Row} (hr : r ∈ opcodeTable) (hr' : r' ∈ opcodeTable) {w : CmdWord} (h : r.covers w = true)
    (h' : r'.covers w = true) : r = r' := by
  have hdisjoint : ∀ r ∈ opcodeTable, ∀ r' ∈ opcodeTable, r.bits &&& r'.mask = r'.bits &&& r.mask → r = r' := by decide
  rw [Row.covers, beq_iff_eq] at h h'
  refine hdisjoint r hr r' hr' ?_
  rw [← h, ← h', BitVec.and_assoc, BitVec.and_assoc, BitVec.and_comm r.mask]

/-- Every word lies in a row, since every opcode does (R93, R94). -/
theorem exists_row_covers (w : CmdWord) : ∃ r ∈ opcodeTable, r.covers w = true := by
  have hop : ∀ op : BitVec 8, ∃ r ∈ opcodeTable, op &&& opField r.mask = opField r.bits := by decide
  obtain ⟨r, hr, h⟩ := hop (opField w)
  obtain ⟨i, _, rfl⟩ := List.mem_map.1 hr
  exact ⟨_, hr, (row_covers_iff i w).2 h⟩

/-! ### The decoder -/

theorem map_row_candidates (w : CmdWord) : (candidates w).map Instr.row = opcodeTable := rfl

/-- Each row has one command that a word of that row spells. -/
theorem eq_of_mem_candidates {w : CmdWord} {i j : Instr} (hi : i ∈ candidates w) (hj : j ∈ candidates w) (h : i.row = j.row) : i = j := by
  have hnodup : ((candidates w).map Instr.row).Nodup := by
    rw [map_row_candidates]
    decide
  exact List.inj_on_of_nodup_map hnodup hi hj h

/-- The default of `decode` is never taken: it answers the command of a row that covers the word. -/
theorem decode_spec (w : CmdWord) : decode w ∈ candidates w ∧ (decode w).row.covers w = true := by
  obtain ⟨r, hr, hcovers⟩ := exists_row_covers w
  rw [← map_row_candidates w] at hr
  obtain ⟨i, hi, rfl⟩ := List.mem_map.1 hr
  have hsome : ((candidates w).find? fun i => i.row.covers w).isSome = true := List.find?_isSome.2 ⟨i, hi, hcovers⟩
  obtain ⟨j, hj⟩ := Option.isSome_iff_exists.1 hsome
  rw [decode, hj]
  exact ⟨List.mem_of_find?_eq_some hj, by simpa using List.find?_some hj⟩

/-- What a word spells in a row that covers it, it decodes to. -/
theorem decode_eq_of_covers {w : CmdWord} {i : Instr} (hi : i ∈ candidates w) (h : i.row.covers w = true) : decode w = i := by
  obtain ⟨hmem, hcovers⟩ := decode_spec w
  exact eq_of_mem_candidates hmem hi (row_eq_of_covers (row_mem_opcodeTable _) (row_mem_opcodeTable _) hcovers h)

/-! ### The encoder -/

/-- The operands stand in their fields (R91). -/
theorem mem_candidates_encode (i : Instr) : i ∈ candidates (encode i) := by
  cases i <;> simp [candidates, encode, opField_packWord, indexField_packWord, colorField_packWord]

/-- A well-formed command encodes into its own row. -/
theorem row_covers_encode {i : Instr} (h : i.WellFormed = true) : i.row.covers (encode i) = true := by
  open Laws.EncodesInRow in
  cases i with
  | setpixel index color => exact (setpixel index color).2 h
  | setall color => exact (setall color).2 h
  | clear => exact clear.2 h
  | reserved00 => exact reserved00.2 h
  | reserved04 op => exact (reserved04 op).2 h
  | reserved08 op => exact (reserved08 op).2 h
  | reserved10 op => exact (reserved10 op).2 h
  | reserved20 op => exact (reserved20 op).2 h
  | reserved40 op => exact (reserved40 op).2 h
  | reserved80 op => exact (reserved80 op).2 h

/-- Settles O2: the command stands among those its word may spell, and its row covers the word. -/
theorem decodeInvertsEncode : Obligations.DecodeInvertsEncode := by
  unfold Obligations.DecodeInvertsEncode
  exact fun i h => decode_eq_of_covers (mem_candidates_encode i) (row_covers_encode h)

/-! ### The bits an operation uses (R93, R95) -/

theorem and_opAndColorBits (w : CmdWord) : w &&& 0xFF0000FFFFFF#48 = packWord (opField w) 0#16 (colorField w) := by
  have hmask : 0xFF0000FFFFFF#48 = packWord 0xFF#8 0#16 ⟨0xFF#8, 0xFF#8, 0xFF#8⟩ := by decide
  conv_lhs => rw [← packWord_fields w, hmask, packWord_and_packWord]
  simp only [and_wholeField, BitVec.and_zero]

theorem and_opBits (w : CmdWord) : w &&& 0xFF0000000000#48 = packWord (opField w) 0#16 Pixel.black := by
  have hmask : 0xFF0000000000#48 = packWord 0xFF#8 0#16 Pixel.black := by decide
  conv_lhs => rw [← packWord_fields w, hmask, packWord_and_packWord]
  simp only [Pixel.black, and_wholeField, BitVec.and_zero]

/-- A command that a word may spell, with the word's own opcode, encodes to the bits of the word that its operation uses. -/
theorem encode_eq_and_usedBits {w : CmdWord} {i : Instr} (hi : i ∈ candidates w) (hop : opField w = opField (encode i)) :
    encode i = w &&& i.usedBits := by
  cases i with
  | setpixel index color =>
    obtain ⟨rfl, rfl⟩ : index = indexField w ∧ color = colorField w := by simpa [candidates] using hi
    rw [encode, opField_packWord] at hop
    rw [encode, ← hop, packWord_fields]
    exact BitVec.and_allOnes.symm
  | setall color =>
    obtain rfl : color = colorField w := by simpa [candidates] using hi
    rw [encode, opField_packWord] at hop
    rw [encode, ← hop]
    exact (and_opAndColorBits w).symm
  | _ =>
    rw [encode, opField_packWord] at hop
    rw [encode, ← hop]
    exact (and_opBits w).symm

/-- In a row that covers the word, the operation's opcode is the word's. -/
theorem opField_eq_of_covers {w : CmdWord} {i : Instr} (hi : i ∈ candidates w) (h : i.row.covers w = true) :
    opField w = opField (encode i) := by
  cases i with
  | setpixel _ _ | setall _ | clear | reserved00 =>
    rw [encode, opField_packWord]
    exact (covers_iff_opcode _ w).1 h
  | reserved04 op | reserved08 op | reserved10 op | reserved20 op | reserved40 op | reserved80 op =>
    rw [encode, opField_packWord]
    simpa [candidates, eq_comm] using hi

theorem opField_of_decode_eq {w : CmdWord} {i : Instr} (h : decode w = i) : opField w = opField (encode i) := by
  subst h
  obtain ⟨hmem, hcovers⟩ := decode_spec w
  exact opField_eq_of_covers hmem hcovers

/-- Settles O3: the decoded command is one that the word may spell, and has the word's opcode. -/
theorem encodeOfDecodeKeepsUsedBits : Obligations.EncodeOfDecodeKeepsUsedBits := by
  unfold Obligations.EncodeOfDecodeKeepsUsedBits
  exact fun w => encode_eq_and_usedBits (decode_spec w).1 (opField_of_decode_eq rfl)

/-! ### Each word in its row (R93) -/

/-- The masks of the reserved rows select the ranges of R94. -/
theorem wellFormed_of_covers {w : CmdWord} {i : Instr} (hi : i ∈ candidates w) (h : i.row.covers w = true) : i.WellFormed = true := by
  cases i with
  | setpixel _ _ | setall _ | clear | reserved00 => rfl
  | reserved04 op | reserved08 op | reserved10 op | reserved20 op | reserved40 op | reserved80 op =>
    obtain rfl : op = opField w := by simpa [candidates] using hi
    rw [row_covers_iff] at h
    revert h
    generalize opField w = op
    revert op
    decide

/-- Settles O4: the decoded command's row covers the word, and no second row does. -/
theorem everyWordSpellsExactlyOneRow : Obligations.EveryWordSpellsExactlyOneRow := by
  unfold Obligations.EveryWordSpellsExactlyOneRow
  intro w
  obtain ⟨hmem, hcovers⟩ := decode_spec w
  refine ⟨wellFormed_of_covers hmem hcovers, row_mem_opcodeTable _, fun r hr => ⟨row_eq_of_covers (row_mem_opcodeTable _) hr hcovers, ?_⟩⟩
  rintro rfl
  exact hcovers

/-! ### The opcode map (R93, R94) -/

theorem decode_of_op_setpixel {w : CmdWord} (h : opField w = 0x01#8) : decode w = .setpixel (indexField w) (colorField w) :=
  decode_eq_of_covers (by simp [candidates]) ((covers_iff_opcode _ w).2 h)

theorem decode_of_op_setall {w : CmdWord} (h : opField w = 0x02#8) : decode w = .setall (colorField w) :=
  decode_eq_of_covers (by simp [candidates]) ((covers_iff_opcode _ w).2 h)

theorem decode_of_op_clear {w : CmdWord} (h : opField w = 0x03#8) : decode w = .clear :=
  decode_eq_of_covers (by simp [candidates]) ((covers_iff_opcode _ w).2 h)

theorem isReserved_decode_iff (w : CmdWord) :
    Safety.isReserved (decode w) = true ↔ opField w ≠ 0x01#8 ∧ opField w ≠ 0x02#8 ∧ opField w ≠ 0x03#8 := by
  refine ⟨fun h => ⟨fun hop => ?_, fun hop => ?_, fun hop => ?_⟩, fun ⟨hpixel, hall, hclear⟩ => ?_⟩
  · simp [decode_of_op_setpixel hop, Safety.isReserved] at h
  · simp [decode_of_op_setall hop, Safety.isReserved] at h
  · simp [decode_of_op_clear hop, Safety.isReserved] at h
  · cases hd : decode w with
    | setpixel _ _ => exact absurd ((opField_of_decode_eq hd).trans (opField_packWord _ _ _)) hpixel
    | setall _ => exact absurd ((opField_of_decode_eq hd).trans (opField_packWord _ _ _)) hall
    | clear => exact absurd ((opField_of_decode_eq hd).trans (opField_packWord _ _ _)) hclear
    | _ => rfl

/-- Settles O5: the command of each opcode, and each row as a mask of its opcode. -/
theorem opcodeSelectsTheOperation : Obligations.OpcodeSelectsTheOperation := by
  unfold Obligations.OpcodeSelectsTheOperation
  exact fun w => ⟨decode_of_op_setpixel, decode_of_op_setall, decode_of_op_clear,
    fun hpixel hall hclear => (isReserved_decode_iff w).2 ⟨hpixel, hall, hclear⟩,
    beq_iff_eq.symm.trans (covers_iff_opcode 0x01#8 w), beq_iff_eq.symm.trans (covers_iff_opcode 0x02#8 w),
    beq_iff_eq.symm.trans (covers_iff_opcode 0x03#8 w)⟩

/-! ### Fields an operation does not use (R95) -/

/-- What a word spells depends on the opcode and the fields its operation uses. -/
theorem decode_congr {w w' : CmdWord} (hop : opField w = opField w') (hpixel : opField w ≠ 0x01#8)
    (hcolor : opField w = 0x02#8 → colorField w = colorField w') : decode w = decode w' := by
  obtain ⟨hmem, hcovers⟩ := decode_spec w
  refine (decode_eq_of_covers ?_ ((row_covers_congr hop _).1 hcovers)).symm
  cases hd : decode w with
  | setpixel _ _ => exact absurd ((opField_of_decode_eq hd).trans (opField_packWord _ _ _)) hpixel
  | setall color =>
    have hall : opField w = 0x02#8 := (opField_of_decode_eq hd).trans (opField_packWord _ _ _)
    simpa [hd, candidates, hcolor hall] using hmem
  | clear | reserved00 => simp [candidates]
  | _ => simpa [hd, candidates, hop] using hmem

/-- Settles O6: `decode_congr`; the encoder's word is its own used bits, so the other bits are zero. -/
theorem unusedFieldsAreIgnored : Obligations.UnusedFieldsAreIgnored := by
  unfold Obligations.UnusedFieldsAreIgnored
  refine ⟨fun _ _ => decode_congr, by decide, fun i => ?_⟩
  rw [encode_eq_and_usedBits (mem_candidates_encode i) rfl, BitVec.and_assoc, BitVec.and_not_self]
  exact BitVec.and_zero

/-! ### What a word executes as -/

theorem exec_of_isReserved {i : Instr} (h : Safety.isReserved i = true) (s : Machine.State) :
    Machine.exec i s = .next { s with cmd := s.cmd.set s.port none } := by
  cases i with
  | setpixel _ _ | setall _ | clear => cases h
  | _ => rfl

/-- Settles O7: the opcodes of the three other operations are 0x01 to 0x03, and each reserved command is only dropped. -/
theorem reservedWordsExecuteAsNoOperations : Obligations.ReservedWordsExecuteAsNoOperations := by
  unfold Obligations.ReservedWordsExecuteAsNoOperations
  refine fun w => ⟨(isReserved_decode_iff w).trans ?_, exec_of_isReserved⟩
  bv_omega

/-- Settles O12: both fill `FB` with the black pixel. -/
theorem clearEqualsSetallOfZero : Obligations.ClearEqualsSetallOfZero := by
  unfold Obligations.ClearEqualsSetallOfZero
  exact Machine.exec_clear_eq_exec_setall

/-- Settles O1: closed words, evaluated. -/
theorem specWordsDecodeAndEncode : Obligations.SpecWordsDecodeAndEncode := by
  unfold Obligations.SpecWordsDecodeAndEncode
  decide

end Sys2Proof
end

section
/-! PROOFS. The statements of 40_encoder.md (R111 to R116): one call of the encoder read back from the payload, its inverse, and `COMPOSE`. -/

namespace Sys2Proof.Machine

/-! ### Reading a written field -/

/-- A read inside a run of writes is the symbol written there. -/
theorem Memory.read_writeAll_inside {m : Memory} (h : Memory.wf m) (o : Nat) {vs : List Symbol} {i : Nat} {y : Symbol}
    (hy : vs[i]? = some y) : Memory.read (Memory.writeAll m o vs) (o + i) = y := by
  rw [Memory.read_writeAll h, if_pos (Nat.le_add_right o i), Nat.add_sub_cancel_left, hy, Option.getD_some]

/-- A run of writes leaves every other offset as it was. -/
theorem Memory.read_writeAll_outside {m : Memory} (h : Memory.wf m) {o : Nat} {vs : List Symbol} {a : Nat}
    (ha : a < o ∨ o + vs.length ≤ a) : Memory.read (Memory.writeAll m o vs) a = Memory.read m a := by
  rw [Memory.read_writeAll h]
  rcases ha with ha | ha
  · rw [if_neg (Nat.not_le.2 ha)]
  · rw [List.getElem?_eq_none (Nat.le_sub_of_add_le' ha), Option.getD_none, ite_self]

/-- The field of a channel value holds in slot `k` of group `j` the symbol of bit `7 - j` (R112). -/
theorem read_writeAll_channelSymbols (c : Cfg) {pl : Memory} (h : Memory.wf pl) (v : Byte) (o : Nat) {j k : Nat} (hj : j < 8)
    (hk : k < c.symbolsPerBit) :
    Memory.read (Memory.writeAll pl o (channelSymbols c v)) (o + c.symbolsPerBit * j + k) =
      if v.getLsbD (7 - j) then c.sym1 else c.sym0 := by
  rw [Nat.add_assoc]
  exact Memory.read_writeAll_inside h o (channelSymbols_getElem? c v hj hk)

/-- Every slot of the eight groups lies in the channel's field. -/
theorem slot_lt_channelLen {c : Cfg} {j k : Nat} (hj : j < 8) (hk : k < c.symbolsPerBit) :
    c.symbolsPerBit * j + k < c.channelLen := by
  rw [Cfg.channelLen, Nat.mul_comm 8]
  exact mul_add_lt_mul hk hj

/-- The field of a pixel holds the fields of green, red and blue one after the other (R113). -/
theorem read_writeAll_pixelSymbols (c : Cfg) {pl : Memory} (h : Memory.wf pl) {p : Pixel} (o : Nat) {ch j k : Nat} {v : Byte}
    (hv : [p.g, p.r, p.b][ch]? = some v) (hj : j < 8) (hk : k < c.symbolsPerBit) :
    Memory.read (Memory.writeAll pl o (pixelSymbols c p)) (o + c.channelLen * ch + c.symbolsPerBit * j + k) =
      if v.getLsbD (7 - j) then c.sym1 else c.sym0 := by
  rw [Nat.add_assoc o, Nat.add_assoc o, Nat.add_assoc]
  refine Memory.read_writeAll_inside h o ?_
  rw [pixelSymbols_getElem? c hv (slot_lt_channelLen hj hk), channelSymbols_getElem? c v hj hk]

/-! ### The calls of the encoder (R111 to R113) -/

/-- Settles O50: the groups are constant, and `SYM0 ≠ SYM1` tells them apart at each slot. -/
theorem encbitYieldsOneGroup : Obligations.EncbitYieldsOneGroup := by
  unfold Obligations.EncbitYieldsOneGroup
  refine fun c => ⟨rfl, rfl, ?_⟩
  rintro ⟨_, _, _, hne, _⟩ k hk hsame
  rw [encBit, encBit, List.getElem?_replicate_of_lt hk, List.getElem?_replicate_of_lt hk] at hsame
  exact hne (Option.some.inj hsame).symm

/-- Settles O51: within the payload the call is one run of writes of `channelSymbols`. -/
theorem encbyteWritesItsFieldOrIsRefused : Obligations.EncbyteWritesItsFieldOrIsRefused := by
  unfold Obligations.EncbyteWritesItsFieldOrIsRefused
  refine fun c v o pl hpl => ⟨fun hfits => ⟨_, encByte_of_fits hfits v pl, Memory.writeAll_keeps_wf hpl _ _, fun j k hj hk => ?_,
    fun a ha => ?_⟩, fun hout => ?_⟩
  · exact read_writeAll_channelSymbols c hpl v o hj hk
  · exact Memory.read_writeAll_outside hpl (by rwa [channelSymbols_length])
  · exact if_neg (Nat.not_le.2 hout)

/-- Settles O52: within the payload the call is one run of writes of `pixelSymbols`. -/
theorem encpixelChainsGreenRedBlue : Obligations.EncpixelChainsGreenRedBlue := by
  unfold Obligations.EncpixelChainsGreenRedBlue
  intro c p o pl hpl hfits
  have hlen : c.pixelLen = 24 * c.symbolsPerBit := (Nat.mul_assoc 3 8 c.symbolsPerBit).symm
  rw [← hlen] at hfits ⊢
  refine ⟨_, encPixel_of_fits hfits p pl, Memory.writeAll_keeps_wf hpl _ _, fun ch j k v hv hj hk => ?_, fun a ha => ?_⟩
  · exact read_writeAll_pixelSymbols c hpl o hv hj hk
  · exact Memory.read_writeAll_outside hpl (by rwa [pixelSymbols_length])

/-! ### The inverse (R115) -/

/-- Settles O56: the field that the call wrote is `channelSymbols`, which `DECBYTE` reads back. -/
theorem decbyteInvertsEncbyte : Obligations.DecbyteInvertsEncbyte := by
  unfold Obligations.DecbyteInvertsEncbyte
  intro c v o o' pl pl' hc hpl henc
  obtain ⟨hfits, hok⟩ | ⟨_, herror⟩ := encByte_cases c v o pl
  · obtain ⟨rfl, rfl⟩ : Memory.writeAll pl o (channelSymbols c v) = pl' ∧ o + c.channelLen = o' := by simpa [hok] using henc
    refine ⟨?_, fun j k hj hk => ?_⟩
    · have hprefix : ((Memory.symbols pl c.payloadLen).take o).length = o := by
        rw [List.length_take, Memory.symbols_length, Nat.min_eq_left (Nat.le_of_add_right_le hfits)]
      rw [Memory.symbols_writeAll hpl (by rwa [channelSymbols_length]), List.append_assoc, List.drop_left' hprefix, ← Cfg.channelLen,
        List.take_left' (channelSymbols_length c v), decByte_channelSymbols hc]
    · have hfirst := read_writeAll_channelSymbols c hpl v o hj (Nat.zero_lt_of_lt hk)
      rw [read_writeAll_channelSymbols c hpl v o hj hk, ← hfirst, Nat.add_zero]
  · rw [herror] at henc
    cases henc

/-- Settles O57: the symbol fails `DECBYTE`'s check that only the two symbols stand in the sequence. -/
theorem decbyteIsUndefinedOffTheTwoSymbols : Obligations.DecbyteIsUndefinedOffTheTwoSymbols := by
  unfold Obligations.DecbyteIsUndefinedOffTheTwoSymbols
  intro c ys y hy h0 h1
  rw [decByte, if_neg]
  rintro ⟨_, hboth⟩
  exact (hboth y hy).elim h0 h1

/-! ### `COMPOSE` (R114) -/

/-- Settles O59: a complete frame reads back, so `COMPOSE` has a left inverse. -/
theorem composeIsInjective : Obligations.ComposeIsInjective := by
  unfold Obligations.ComposeIsInjective
  intro c fb fb' hc hfb hfb' hsame
  refine Option.some.inj ?_
  calc some fb = decFrame c (compose c fb) := (completeFrameReadsBack c fb hc hfb).symm
    _ = decFrame c (compose c fb') := by rw [hsame]
    _ = some fb' := completeFrameReadsBack c fb' hc hfb'

/-- The groups of clear bits are one run of `SYM0`. -/
theorem flatMap_encBit_of_clear (c : Cfg) {v : Byte} {js : List Nat} (h : ∀ j ∈ js, v.getLsbD (7 - j) = false) :
    js.flatMap (fun j => encBit c (v.getLsbD (7 - j))) = List.replicate (js.length * c.symbolsPerBit) c.sym0 := by
  refine List.eq_replicate_iff.2 ⟨by simp [List.length_flatMap], fun y hy => ?_⟩
  obtain ⟨j, hj, hy⟩ := List.mem_flatMap.1 hy
  rw [mem_encBit hy, h j hj]
  rfl

theorem channelSymbols_zero (c : Cfg) : channelSymbols c 0#8 = List.replicate c.channelLen c.sym0 :=
  flatMap_encBit_of_clear c fun _ _ => BitVec.getLsbD_zero

theorem pixelSymbols_black (c : Cfg) : pixelSymbols c Pixel.black = List.replicate c.pixelLen c.sym0 := by
  simp only [pixelSymbols_eq, Pixel.black, channelSymbols_zero, List.replicate_append_replicate, Cfg.pixelLen]
  congr 1
  omega

/-- A value whose only set bit is bit `b`: the clear bits above it, its own group, the clear bits below. -/
theorem channelSymbols_twoPow (c : Cfg) {b : Nat} (hb : b < 8) :
    channelSymbols c (BitVec.twoPow 8 b) =
      List.replicate ((7 - b) * c.symbolsPerBit) c.sym0 ++ List.replicate c.symbolsPerBit c.sym1 ++
        List.replicate (b * c.symbolsPerBit) c.sym0 := by
  have hgroups : List.range 8 = List.range (7 - b) ++ [7 - b] ++ List.range' (8 - b) b := by
    revert b
    decide
  have hclear {j : Nat} (hj : b ≠ 7 - j) : (BitVec.twoPow 8 b).getLsbD (7 - j) = false := by
    simp [BitVec.getLsbD_twoPow, hj]
  have habove : ∀ j ∈ List.range (7 - b), (BitVec.twoPow 8 b).getLsbD (7 - j) = false := by
    intro j hj
    have := List.mem_range.1 hj
    exact hclear (by omega)
  have hbelow : ∀ j ∈ List.range' (8 - b) b, (BitVec.twoPow 8 b).getLsbD (7 - j) = false := by
    intro j hj
    have := List.mem_range'_1.1 hj
    exact hclear (by omega)
  have hown : encBit c ((BitVec.twoPow 8 b).getLsbD (7 - (7 - b))) = List.replicate c.symbolsPerBit c.sym1 := by
    rw [Nat.sub_sub_self (Nat.le_of_lt_succ hb), BitVec.getLsbD_twoPow]
    simp [encBit, hb]
  rw [channelSymbols, hgroups, List.flatMap_append, List.flatMap_append, flatMap_encBit_of_clear c habove,
    flatMap_encBit_of_clear c hbelow, List.flatMap_singleton, hown, List.length_range, List.length_range']

/-- Settles O60: the lit pixel's channels have one set bit each, bits 0, 1 and 2; the seven others are black. -/
theorem sourceScenarioComposes : Obligations.SourceScenarioComposes := by
  unfold Obligations.SourceScenarioComposes
  intro c _ hP hS
  have hone {b : Nat} (hb : b < 8) : channelSymbols c (BitVec.twoPow 8 b) =
      List.replicate ((7 - b) * 8) c.sym0 ++ List.replicate 8 c.sym1 ++ List.replicate (b * 8) c.sym0 := by
    rw [channelSymbols_twoPow c hb, hS]
  have hgreen : channelSymbols c 0x01#8 = List.replicate 56 c.sym0 ++ List.replicate 8 c.sym1 :=
    (hone (b := 0) (by decide)).trans (List.append_nil _)
  have hred : channelSymbols c 0x02#8 = List.replicate 48 c.sym0 ++ List.replicate 8 c.sym1 ++ List.replicate 8 c.sym0 :=
    hone (b := 1) (by decide)
  have hblue : channelSymbols c 0x04#8 = List.replicate 40 c.sym0 ++ List.replicate 8 c.sym1 ++ List.replicate 16 c.sym0 :=
    hone (b := 2) (by decide)
  have hothers : (List.replicate 7 Pixel.black).flatMap (pixelSymbols c) = List.replicate 1344 c.sym0 := by
    rw [List.flatMap_replicate, pixelSymbols_black, List.flatten_replicate_replicate, Cfg.pixelLen, Cfg.channelLen, hS]
  rw [Pixel.black] at hothers
  rw [compose, List.flatMap_cons, pixelSymbols_eq, hgreen, hred, hblue, hothers, hP, ZSYM]
  simp only [List.append_assoc]

end Sys2Proof.Machine
end

section
/-! PROOFS. The statements of 41_framebuffer_producer.md (R130 to R138): the issue and the execute step of a port, what each command does under a free
lock, under a taken one and out of range, and what a snapshot then reads. -/

namespace Sys2Proof.Machine

/-! ### A command that waits, and what one answers that does not -/

/-- A `SETPIXEL` in range waits under a taken lock (R131). -/
theorem exec_setpixel_of_taken {index : BitVec 16} {s : State} (h : index.toNat < s.cfg.ledCount) (hl : s.lock ≠ .free) (color : Pixel) :
    exec (.setpixel index color) s = .next s :=
  (if_neg (Nat.not_le.2 h)).trans (commandUnderLock_of_taken hl)

/-- `SETALL` waits under a taken lock (R132). -/
theorem exec_setall_of_taken {s : State} (hl : s.lock ≠ .free) (color : Pixel) : exec (.setall color) s = .next s :=
  commandUnderLock_of_taken hl

/-- A `SETPIXEL` in range under a free lock writes its pixel: with N pixels in `FB`, the pixel stands there (R131). -/
theorem exec_setpixel_of_full {index : BitVec 16} {s : State} (hfb : s.fb.length = s.cfg.ledCount) (h : index.toNat < s.cfg.ledCount)
    (hf : s.lock = .free) (color : Pixel) :
    exec (.setpixel index color) s = .next { s with fb := s.fb.set index.toNat color, cmd := s.cmd.set s.port none } :=
  (exec_setpixel_of_free h hf color).trans (if_pos (hfb ▸ h))

/-- Settles O14: `exec_answers`, which goes through the commands and asks of each whether it is in range and whether the lock is free. -/
theorem noCommandEverStops : Obligations.NoCommandEverStops := by
  unfold Obligations.NoCommandEverStops
  exact fun i _ hfb => Safety.exec_answers i hfb

/-- Settles O8: the range check decides first, then the lock. -/
theorem setpixelWritesOnePixelOrIsRejected : Obligations.SetpixelWritesOnePixelOrIsRejected := by
  unfold Obligations.SetpixelWritesOnePixelOrIsRejected
  intro s index color hfb
  refine ⟨fun hin hf => ?_, fun hin hl => ?_, fun hout => ?_⟩
  · exact exec_setpixel_of_full hfb hin hf color
  · exact exec_setpixel_of_taken hin hl color
  · exact exec_setpixel_of_outside hout color

/-- Settles O9: the lock is free or taken. -/
theorem setallWritesEveryPixel : Obligations.SetallWritesEveryPixel := by
  unfold Obligations.SetallWritesEveryPixel
  exact fun _ color => ⟨fun hf => exec_setall_of_free hf color, fun hl => exec_setall_of_taken hl color⟩

/-- Settles O10: `CLEAR` is `SETALL` of the black pixel. -/
theorem clearZeroesEveryPixel : Obligations.ClearZeroesEveryPixel := by
  unfold Obligations.ClearZeroesEveryPixel
  intro s
  rw [exec_clear_eq_exec_setall]
  exact setallWritesEveryPixel s Pixel.black

/-- Settles O11: each of the seven is a reserved command, and a reserved command is only dropped. -/
theorem reservedCommandsOnlyLeaveTheLatch : Obligations.ReservedCommandsOnlyLeaveTheLatch := by
  unfold Obligations.ReservedCommandsOnlyLeaveTheLatch
  intro s op
  have dropped (i : Instr) (h : Safety.isReserved i = true) : exec i s = .next { s with cmd := s.cmd.set s.port none } :=
    exec_of_isReserved h s
  exact ⟨dropped _ rfl, dropped _ rfl, dropped _ rfl, dropped _ rfl, dropped _ rfl, dropped _ rfl, dropped _ rfl⟩

/-- Settles O16: the sequencer, as the owner, reads what stands in `FB`: the pixel just set, or one of N black ones. -/
theorem snapshotReadsWhatCommandsWrote : Obligations.SnapshotReadsWhatCommandsWrote := by
  unfold Obligations.SnapshotReadsWhatCommandsWrote
  constructor
  · intro s t index color hfb hin hf h
    rw [exec_setpixel_of_full hfb hin hf] at h
    cases h
    have hstored : (s.fb.set index.toNat color)[index.toNat]? = some color := List.getElem?_set_self (hfb ▸ hin)
    exact readPixel_of_owner rfl hstored
  · intro s t k hk hf h
    rw [exec_clear_eq_exec_setall, exec_setall_of_free hf] at h
    cases h
    have hstored : (List.replicate s.cfg.ledCount Pixel.black)[k]? = some Pixel.black := List.getElem?_replicate_of_lt hk
    exact readPixel_of_owner rfl hstored

/-! ### The steps of a port (R130) -/

/-- Taking a choice touches no latch. -/
@[simp] theorem latch_consumeChoice (p : Nat) (s : State) : latch p (consumeChoice s) = latch p s :=
  latch_congr (by rw [consumeChoice_cmd])

/-- A ready port accepts the word (R130 (1)). -/
theorem issueStep_of_ready {p : Nat} {s : State} (h : cmdReady p s = true) (w : CmdWord) :
    issueStep p w s = .next { s with cmd := s.cmd.set p (some w) } :=
  if_pos h

/-- A port that is not ready accepts nothing. -/
theorem issueStep_of_not_ready {p : Nat} {s : State} (h : ¬ cmdReady p s = true) (w : CmdWord) : issueStep p w s = .next s :=
  if_neg h

/-- A port with a pending word executes what it decodes to (R130 (2)). -/
theorem executeStep_of_pending {p : Nat} {s : State} {w : CmdWord} (h : latch p s = some w) :
    executeStep p s = exec (decode w) (selectPort p s) := by
  rw [executeStep, h]

/-- A port with nothing pending executes nothing. -/
theorem executeStep_of_empty {p : Nat} {s : State} (h : latch p s = none) : executeStep p s = .next s := by
  rw [executeStep, h]

/-- Settles O18: a port is ready exactly when it exists and its latch is empty, before the choice is taken as after. -/
theorem issueIsAcceptedExactlyByAReadyPort : Obligations.IssueIsAcceptedExactlyByAReadyPort := by
  unfold Obligations.IssueIsAcceptedExactlyByAReadyPort
  intro s p w hc
  have hstep : step s = issueStep p w (consumeChoice s) := step_of_nextChoice hc
  have hready : cmdReady p (consumeChoice s) = true ↔ p < s.cmd.length ∧ latch p s = none := by
    rw [cmdReady_iff, consumeChoice_cmd, latch_consumeChoice]
  rw [hstep]
  refine ⟨fun hp hempty => ?_, fun _ hbusy => ?_, fun habsent => ?_⟩
  · rw [issueStep_of_ready (hready.2 ⟨hp, hempty⟩), consumeChoice_cmd]
  · exact issueStep_of_not_ready (fun hr => hbusy (hready.1 hr).2) w
  · exact issueStep_of_not_ready (fun hr => Nat.not_lt.2 habsent (hready.1 hr).1) w

/-- Settles O19: the step is the port's execute step, and the latch it finds is the one before the choice was taken. -/
theorem stepExecutesTheDecodedCommand : Obligations.StepExecutesTheDecodedCommand := by
  unfold Obligations.StepExecutesTheDecodedCommand
  intro s p hc
  have hstep : step s = executeStep p (consumeChoice s) := step_of_nextChoice hc
  rw [hstep]
  constructor
  · rintro w i hpending rfl
    exact executeStep_of_pending ((latch_consumeChoice p s).trans hpending)
  · intro hempty
    exact executeStep_of_empty ((latch_consumeChoice p s).trans hempty)

end Sys2Proof.Machine
end

section
/-! PROOFS. The statements of 42_transmission.md section 2 (R151 to R160): what the sequencer's step answers, phase by phase, and how the phase moves. -/

namespace Sys2Proof.Machine

open Sys2Proof.Safety

/-! ### What the sequencer's step answers, phase by phase -/

section Answers

variable {ready fail : Bool} {s : State}

theorem sequencerStep_of_idle (hp : s.phase = .idle) : sequencerStep ready fail s = phaseIdle s := by
  rw [sequencerStep, hp]

theorem sequencerStep_of_idle_pos (hp : s.phase = .idle) (ht : 0 < s.timer) :
    sequencerStep ready fail s = .next { s with timer := s.timer - 1 } :=
  (sequencerStep_of_idle hp).trans (if_pos ht)

theorem sequencerStep_of_idle_zero (hp : s.phase = .idle) (ht : s.timer = 0) :
    sequencerStep ready fail s = .next { s with phase := .zerofill } :=
  (sequencerStep_of_idle hp).trans (if_neg (Nat.not_lt.2 ht.le))

theorem sequencerStep_of_zerofill (hp : s.phase = .zerofill) :
    sequencerStep ready fail s = .next { s with
      pl := Memory.writeAll s.pl 0 (List.replicate s.cfg.payloadLen ZSYM), wo := s.cfg.preambleLen, phase := .acquire } := by
  rw [sequencerStep, hp]
  rfl

theorem sequencerStep_of_acquire (hp : s.phase = .acquire) : sequencerStep ready fail s = phaseAcquire s := by
  rw [sequencerStep, hp]

theorem sequencerStep_of_acquire_free (hp : s.phase = .acquire) (hl : s.lock = .free) :
    sequencerStep ready fail s = .next { s with lock := .tx, px := 0, phase := .encode } :=
  (sequencerStep_of_acquire hp).trans (if_pos hl)

theorem sequencerStep_of_acquire_taken (hp : s.phase = .acquire) (hl : s.lock ≠ .free) :
    sequencerStep ready fail s = .next s :=
  (sequencerStep_of_acquire hp).trans (if_neg hl)

theorem sequencerStep_of_encode (hp : s.phase = .encode) : sequencerStep ready fail s = phaseEncode s := by
  rw [sequencerStep, hp]

theorem sequencerStep_of_encode_pixel {p : Pixel} {pl : Memory} {wo : Nat} (hp : s.phase = .encode) (hpx : s.px < s.cfg.ledCount)
    (hl : s.lock = .tx) (hfb : s.fb[s.px]? = some p) (henc : encPixel s.cfg p s.wo s.pl = .ok (pl, wo)) :
    sequencerStep ready fail s = .next { s with pl := pl, wo := wo, px := s.px + 1 } := by
  rw [sequencerStep_of_encode hp, phaseEncode, if_pos hpx, encodeOnePixel, readPixel_of_owner hl hfb]
  simp only [henc]

theorem sequencerStep_of_encode_end (hp : s.phase = .encode) (hpx : s.cfg.ledCount ≤ s.px) :
    sequencerStep ready fail s = .next { s with phase := .release } :=
  (sequencerStep_of_encode hp).trans (if_neg (Nat.not_lt.2 hpx))

theorem sequencerStep_of_release (hp : s.phase = .release) (hl : s.lock = .tx) :
    sequencerStep ready fail s = .next { s with lock := .free, phase := .select } := by
  rw [sequencerStep, hp]
  exact congrArg (andThen · _) (releaseLock_of_owner hl)

theorem sequencerStep_of_select (hp : s.phase = .select) :
    sequencerStep ready fail s = .next { s with csN := 0#1, trace := s.trace ++ [.select], rk := 0, phase := .write } := by
  rw [sequencerStep, hp]
  rfl

theorem sequencerStep_of_write (hp : s.phase = .write) : sequencerStep ready fail s = phaseWrite ready fail s := by
  rw [sequencerStep, hp]

theorem sequencerStep_of_write_wait (hp : s.phase = .write) (hready : ready = false) (hrk : s.rk ≠ s.cfg.payloadLen) :
    sequencerStep ready fail s = .next s :=
  (sequencerStep_of_write hp).trans (if_pos ⟨hready, hrk⟩)

/-- An enabled `WRITE` step does not wait (R157). -/
theorem sequencerStep_of_write_enabled (hp : s.phase = .write) (hen : ready = true ∨ s.rk = s.cfg.payloadLen) :
    sequencerStep ready fail s =
      if s.cfg.busCanFail && fail then failFrame s
      else if s.rk < s.cfg.payloadLen then pushSymbol s
      else .next (setPhase .deselect s) := by
  refine (sequencerStep_of_write hp).trans (if_neg ?_)
  rintro ⟨hready, hrk⟩
  simp [hready, hrk] at hen

theorem sequencerStep_of_write_fail (hp : s.phase = .write) (hen : ready = true ∨ s.rk = s.cfg.payloadLen)
    (hf : (s.cfg.busCanFail && fail) = true) :
    sequencerStep ready fail s = .next { s with signals := s.signals ++ [.busWriteFailure s.rk], phase := .deselect } :=
  (sequencerStep_of_write_enabled hp hen).trans (if_pos hf)

theorem sequencerStep_of_write_push (hp : s.phase = .write) (hready : ready = true) (hf : (s.cfg.busCanFail && fail) = false)
    (hrk : s.rk < s.cfg.payloadLen) :
    sequencerStep ready fail s = .next { s with trace := s.trace ++ [.sym (Memory.read s.pl s.rk)], rk := s.rk + 1 } := by
  rw [sequencerStep_of_write_enabled hp (.inl hready), hf, if_neg Bool.false_ne_true, if_pos hrk]
  rfl

theorem sequencerStep_of_write_end (hp : s.phase = .write) (hf : (s.cfg.busCanFail && fail) = false) (hrk : s.rk = s.cfg.payloadLen) :
    sequencerStep ready fail s = .next { s with phase := .deselect } := by
  rw [sequencerStep_of_write_enabled hp (.inr hrk), hf, if_neg Bool.false_ne_true, if_neg (Nat.not_lt.2 hrk.ge)]
  rfl

theorem sequencerStep_of_deselect (hp : s.phase = .deselect) :
    sequencerStep ready fail s = .next { s with
      csN := 1#1, trace := s.trace ++ [.deselect], timer := s.cfg.refreshInterval, phase := .idle } := by
  rw [sequencerStep, hp]
  rfl

/-- Taking a choice writes only the two fields of the environment (log 1). -/
theorem consumeChoice_frame (s : State) : ∃ sched draws, consumeChoice s = { s with sched := sched, draws := draws } := by
  unfold consumeChoice
  split <;> exact ⟨_, _, rfl⟩

/-- When the sequencer is chosen, the step is its step, from the state whose choice is taken. -/
theorem step_of_sequencer (h : nextChoice s = .sequencer ready fail) :
    ∃ sched draws, consumeChoice s = { s with sched := sched, draws := draws } ∧
      step s = sequencerStep ready fail { s with sched := sched, draws := draws } := by
  obtain ⟨sched, draws, hc⟩ := consumeChoice_frame s
  exact ⟨sched, draws, hc, hc ▸ step_of_nextChoice h⟩

end Answers

/-! ### The rules of the phases (R151 to R159) -/

/-- Settles O23: the dwell is running or over. -/
theorem idleCountsDownThenGoesOn : Obligations.IdleCountsDownThenGoesOn := by
  unfold Obligations.IdleCountsDownThenGoesOn
  intro s ready fail hc hp
  obtain ⟨sched, draws, hconsume, hstep⟩ := step_of_sequencer hc
  rw [hstep, hconsume]
  exact ⟨fun ht => sequencerStep_of_idle_pos hp ht, fun ht => sequencerStep_of_idle_zero hp ht⟩

/-- Settles O24: the payload is one run of writes of the zero symbol. -/
theorem zerofillZeroesThePayload : Obligations.ZerofillZeroesThePayload := by
  unfold Obligations.ZerofillZeroesThePayload
  intro s ready fail hc hp hwf
  obtain ⟨sched, draws, hconsume, hstep⟩ := step_of_sequencer hc
  rw [hstep, hconsume]
  refine ⟨_, sequencerStep_of_zerofill hp, rfl, rfl, fun o ho => ?_, fun o ho => ?_, rfl⟩
  · have hzero : (List.replicate s.cfg.payloadLen ZSYM)[o]? = some 0x00#8 := List.getElem?_replicate_of_lt ho
    simpa using Memory.read_writeAll_inside hwf 0 hzero
  · exact Memory.read_writeAll_outside hwf (.inr (by simpa using ho))

/-- Settles O25: the lock is free or taken. -/
theorem acquireTakesAFreeLockOrWaits : Obligations.AcquireTakesAFreeLockOrWaits := by
  unfold Obligations.AcquireTakesAFreeLockOrWaits
  intro s ready fail hc hp
  obtain ⟨sched, draws, hconsume, hstep⟩ := step_of_sequencer hc
  rw [hstep, hconsume]
  exact ⟨fun hl => sequencerStep_of_acquire_free hp hl, fun hl => sequencerStep_of_acquire_taken hp hl⟩

/-- Settles O26: the step is one call of `ENCPIXEL`, which O52 describes. -/
theorem encodeWritesOnePixelAStep : Obligations.EncodeWritesOnePixelAStep := by
  unfold Obligations.EncodeWritesOnePixelAStep
  intro s ready fail hc hp
  obtain ⟨sched, draws, hconsume, hstep⟩ := step_of_sequencer hc
  rw [hstep, hconsume]
  refine ⟨fun p hpx hfb hl hwf hfits => ?_, fun hpx => sequencerStep_of_encode_end hp hpx⟩
  obtain ⟨pl, henc, _, hfield, hframe⟩ := encpixelChainsGreenRedBlue s.cfg p s.wo s.pl hwf hfits
  exact ⟨_, sequencerStep_of_encode_pixel hp hpx hl hfb henc, rfl, rfl, hfield, hframe, rfl⟩

/-- Settles O27: the sequencer releases what it owns. -/
theorem releaseFreesTheLock : Obligations.ReleaseFreesTheLock := by
  unfold Obligations.ReleaseFreesTheLock
  intro s ready fail hc hp hl
  obtain ⟨sched, draws, hconsume, hstep⟩ := step_of_sequencer hc
  rw [hstep, hconsume]
  exact sequencerStep_of_release hp hl

/-- Settles O28: the one answer of `SELECT`. -/
theorem selectAssertsDeviceSelect : Obligations.SelectAssertsDeviceSelect := by
  unfold Obligations.SelectAssertsDeviceSelect
  intro s ready fail hc hp
  obtain ⟨sched, draws, hconsume, hstep⟩ := step_of_sequencer hc
  rw [hstep, hconsume]
  exact sequencerStep_of_select hp

/-- Settles O29: a symbol goes out, the bus makes the sequencer wait, or all symbols are out. -/
theorem writePushesOneSymbolAStep : Obligations.WritePushesOneSymbolAStep := by
  unfold Obligations.WritePushesOneSymbolAStep
  intro s ready fail hc hp
  obtain ⟨sched, draws, hconsume, hstep⟩ := step_of_sequencer hc
  rw [hstep, hconsume]
  refine ⟨fun hf hrk hready => ?_, fun hrk hready => ?_, fun hf hrk => ?_⟩
  · exact sequencerStep_of_write_push hp hready (Bool.and_eq_false_iff.2 hf) hrk
  · exact sequencerStep_of_write_wait hp hready (Nat.ne_of_lt hrk)
  · exact sequencerStep_of_write_end hp (Bool.and_eq_false_iff.2 hf) hrk

/-- Settles O30: the failure is drawn at an enabled step of a bus that can fail. -/
theorem busFailureCutsTheFrame : Obligations.BusFailureCutsTheFrame := by
  unfold Obligations.BusFailureCutsTheFrame
  intro s ready hc hp hcan hen
  obtain ⟨sched, draws, hconsume, hstep⟩ := step_of_sequencer hc
  rw [hstep, hconsume]
  exact sequencerStep_of_write_fail hp hen (Bool.and_eq_true_iff.2 ⟨hcan, rfl⟩)

/-- Settles O31: the one answer of `DESELECT`. -/
theorem deselectEndsTheFrame : Obligations.DeselectEndsTheFrame := by
  unfold Obligations.DeselectEndsTheFrame
  intro s ready fail hc hp
  obtain ⟨sched, draws, hconsume, hstep⟩ := step_of_sequencer hc
  rw [hstep, hconsume]
  exact sequencerStep_of_deselect hp

/-! ### The table of transitions (R160) -/

/-- The phase after the sequencer's step: the table of R160, a wait leaving the phase (log 2, log 12). -/
def phaseAfter (ready fail : Bool) (s : State) : Phase :=
  match s.phase with
  | .idle => if 0 < s.timer then .idle else .zerofill
  | .zerofill => .acquire
  | .acquire => if s.lock = .free then .encode else .acquire
  | .encode => if s.px < s.cfg.ledCount then .encode else .release
  | .release => .select
  | .select => .write
  | .write =>
    if ready = true then if (s.cfg.busCanFail && fail) = true ∨ s.cfg.payloadLen ≤ s.rk then .deselect else .write
    else if s.rk = s.cfg.payloadLen then .deselect else .write
  | .deselect => .idle

theorem sequencerStep_phase {ready fail : Bool} {s t : State} (h : sequencerStep ready fail s = .next t) :
    t.phase = phaseAfter ready fail s := by
  rcases sequencerStep_cases h with ⟨hp, ht, rfl⟩ | ⟨hp, ht, rfl⟩ | ⟨hp, rfl⟩ | ⟨hp, hl, rfl⟩ | ⟨hp, hl, rfl⟩ |
    ⟨hp, hpx, _, _, _, _, _, _, rfl⟩ | ⟨hp, hpx, rfl⟩ | ⟨hp, _, rfl⟩ | ⟨hp, rfl⟩ | ⟨hp, hready, hrk, rfl⟩ |
    ⟨hp, hen, hcan, hf, rfl⟩ | ⟨hp, hready, hf, hrk, rfl⟩ | ⟨hp, hen, _, hrk, rfl⟩ | ⟨hp, rfl⟩
  · simp [phaseAfter, hp, ht]
  · simp [phaseAfter, hp, ht]
  · simp [phaseAfter, hp]
  · simp [phaseAfter, hp, hl]
  · simp [phaseAfter, hp, hl]
  · simp [phaseAfter, hp, hpx]
  · simp [phaseAfter, hp, Nat.not_lt.2 hpx]
  · simp [phaseAfter, hp]
  · simp [phaseAfter, hp]
  · simp [phaseAfter, hp, hready, hrk]
  · rcases hen with hready | hrk
    · simp [phaseAfter, hp, hready, hcan, hf]
    · simp [phaseAfter, hp, hrk]
  · simp [phaseAfter, hp, hready, hf, hrk]
  · rcases hen with hready | hend
    · simp [phaseAfter, hp, hready, hrk]
    · simp [phaseAfter, hp, hend]
  · simp [phaseAfter, hp]

theorem phaseAfter_consumeChoice (ready fail : Bool) (s : State) : phaseAfter ready fail (consumeChoice s) = phaseAfter ready fail s := by
  simp [phaseAfter]

/-- A step that is neither a reset nor the sequencer's is a producer's. -/
theorem producer_step_frame {s t : State} (h : step s = .next t) (hno : isReset (nextChoice s) = false)
    (hseq : ∀ ready fail, nextChoice s ≠ .sequencer ready fail) :
    ∃ fb signals cmd port, t = { consumeChoice s with fb := fb, signals := signals, cmd := cmd, port := port } := by
  rcases step_cases_by_agent h with ⟨hreset, _⟩ | ⟨ready, fail, hc, _⟩ | hproducer
  · simp [hno] at hreset
  · exact absurd hc (hseq ready fail)
  · exact hproducer

theorem producer_step_phase {s t : State} (h : step s = .next t) (hno : isReset (nextChoice s) = false)
    (hseq : ∀ ready fail, nextChoice s ≠ .sequencer ready fail) : t.phase = s.phase := by
  obtain ⟨_, _, _, _, rfl⟩ := producer_step_frame h hno hseq
  exact consumeChoice_phase s

/-- Settles O32: reset sets the phase, a producer's step leaves it, and the sequencer's moves it as `phaseAfter` says. -/
theorem phaseMovesOnlyByTheTable : Obligations.PhaseMovesOnlyByTheTable := by
  unfold Obligations.PhaseMovesOnlyByTheTable
  intro s t h
  refine ⟨fun hreset => ?_, fun p w hc => ?_, fun p hc => ?_, fun ready fail hc => ?_⟩
  · rcases step_cases_by_sequencer h with ⟨_, _, _, rfl⟩ | ⟨hno, _⟩ | ⟨hno, _⟩
    · rfl
    · simp [hno] at hreset
    · simp [hno] at hreset
  · exact producer_step_phase h (by rw [hc]; rfl) (by simp [hc])
  · exact producer_step_phase h (by rw [hc]; rfl) (by simp [hc])
  · have hphase : t.phase = phaseAfter ready fail s := by
      rw [step_of_nextChoice hc] at h
      exact (sequencerStep_phase h).trans (phaseAfter_consumeChoice ready fail s)
    rw [hphase]
    refine ⟨fun hp => ?_, fun hp => ?_, fun hp => ?_, fun hp => ?_, fun hp => ?_, fun hp => ?_, fun hp hready => ?_,
      fun hp hready => ?_, fun hp => ?_⟩
    all_goals simp only [phaseAfter, hp]
    · rw [if_pos hready]
    · rw [if_neg (by simp [hready])]

end Sys2Proof.Machine
end

section
/-! PROOFS. The statements of 42_transmission.md sections 3 and 4 (R161 to R164): the invariant, one cycle as a single function, and the exit of every
phase. -/

namespace Sys2Proof.Safety

open Sys2Proof.Machine

/-! ### The invariant (R161, R163) -/

/-- Settles O35: the history of a launch meets its invariant, the state's among it. -/
theorem launchMeetsTheInvariant : Obligations.LaunchMeetsTheInvariant := by
  unfold Obligations.LaunchMeetsTheInvariant
  intro cfg fbInit plInit sched hlaunch
  have hh := histInv_launch sched hlaunch
  exact ⟨hh.inv, hh⟩

/-- Settles O36: `Inv.of_step`, by the agent that makes the step and the phase of the sequencer. -/
theorem everyStepKeepsTheInvariant : Obligations.EveryStepKeepsTheInvariant := by
  unfold Obligations.EveryStepKeepsTheInvariant
  exact fun _ _ hs h => hs.of_step h

/-- Settles O37: `Inv.step_answers`, by the choice that is next. -/
theorem invariantStatesNeverStop : Obligations.InvariantStatesNeverStop := by
  unfold Obligations.InvariantStatesNeverStop
  exact fun _ hs => hs.step_answers

/-! ### One cycle (R162) -/

/-- `n` steps of the sequencer, each with the bus ready and no failure, lead from `s` to `t`, whatever choices come after them. -/
def Reaches (n : Nat) (s t : State) : Prop :=
  ∀ rest, Sys2Proof.core.run n { s with sched := List.replicate n (.sequencer true false) ++ rest } = .next { t with sched := rest }

theorem Reaches.refl (s : State) : Reaches 0 s s := fun _ => rfl

/-- One step more at the front: it is the sequencer's, whatever is scheduled after it. -/
theorem Reaches.cons {n : Nat} {s t u : State} (h : Reaches n t u)
    (hseq : ∀ sched, sequencerStep true false { s with sched := sched } = .next { t with sched := sched }) : Reaches (n + 1) s u := by
  intro rest
  have hstep : step { s with sched := List.replicate (n + 1) (.sequencer true false) ++ rest } =
      .next { t with sched := List.replicate n (.sequencer true false) ++ rest } :=
    (step_of_sched (c := .sequencer true false) rfl).trans (hseq _)
  exact (core_run_succ hstep).trans (h rest)

theorem Reaches.trans {n m : Nat} {s t u : State} (h : Reaches n s t) (h' : Reaches m t u) : Reaches (n + m) s u := by
  intro rest
  rw [List.replicate_add, List.append_assoc, core_run_add (h _)]
  exact h' rest

theorem Reaches.single {s t : State}
    (hseq : ∀ sched, sequencerStep true false { s with sched := sched } = .next { t with sched := sched }) : Reaches 1 s t :=
  (Reaches.refl t).cons hseq

theorem reaches_encode {s : State} (hp : s.phase = .acquire) (hl : s.lock = .free) :
    Reaches 1 s { s with lock := .tx, px := 0, phase := .encode } :=
  .single fun _ => sequencerStep_of_acquire_free hp hl

/-- The `ENCODE` loop (R154): with `k` pixels left it takes `k + 1` steps, and the payload is then `COMPOSE(FB)`. -/
theorem Inv.reaches_release {s : State} (hs : Inv s) (hp : s.phase = .encode) {k : Nat} (hk : s.px + k = s.cfg.ledCount) :
    ∃ pl wo, Memory.symbols pl s.cfg.payloadLen = compose s.cfg s.fb ∧
      Reaches (k + 1) s { s with pl := pl, wo := wo, px := s.cfg.ledCount, phase := .release } := by
  induction k generalizing s with
  | zero =>
    have hend : s.cfg.ledCount = s.px := hk.symm
    refine ⟨s.pl, s.wo, (hs.encodeDone hp hend.le).atRelease rfl, ?_⟩
    rw [hend]
    exact .single fun _ => sequencerStep_of_encode_end hp hend.le
  | succ k ih =>
    have hpx : s.px < s.cfg.ledCount := by omega
    have hlock : s.lock = .tx := hs.lockTx.2 (by rw [hp]; rfl)
    have hfits : s.wo + s.cfg.pixelLen ≤ s.cfg.payloadLen := (hs.atEncode hp).1 ▸ pixel_fits s.cfg hpx
    have hpixel := List.getElem?_eq_getElem (hs.fbLength ▸ hpx)
    have hnext := hs.encodePixel hp hpixel
    obtain ⟨pl, wo, hpl, hrest⟩ := ih hnext hp (show s.px + 1 + k = s.cfg.ledCount by omega)
    exact ⟨pl, wo, hpl, hrest.cons fun _ => sequencerStep_of_encode_pixel hp hpx hlock hpixel (encPixel_of_fits hfits _ _)⟩

theorem reaches_select {s : State} (hp : s.phase = .release) (hl : s.lock = .tx) :
    Reaches 1 s { s with lock := .free, phase := .select } :=
  .single fun _ => sequencerStep_of_release hp hl

theorem reaches_write {s : State} (hp : s.phase = .select) :
    Reaches 1 s { s with csN := 0#1, trace := s.trace ++ [.select], rk := 0, phase := .write } :=
  .single fun _ => sequencerStep_of_select hp

/-- The `WRITE` loop without a failure (R157): with `k` symbols left it takes `k + 1` steps, and they have all gone out. -/
theorem reaches_deselect {s : State} (hp : s.phase = .write) {k : Nat} (hk : s.rk + k = s.cfg.payloadLen) :
    Reaches (k + 1) s { s with
      trace := s.trace ++ ((payload s).drop s.rk).map .sym, rk := s.cfg.payloadLen, phase := .deselect } := by
  induction k generalizing s with
  | zero =>
    have hend : s.cfg.payloadLen = s.rk := hk.symm
    rw [List.drop_of_length_le (by rw [payload_length, hend]), List.map_nil, List.append_nil, hend]
    exact .single fun _ => sequencerStep_of_write_end hp (Bool.and_false _) hend.symm
  | succ k ih =>
    have hrk : s.rk < s.cfg.payloadLen := by omega
    have hsymbol : (payload s).drop s.rk = Memory.read s.pl s.rk :: (payload s).drop (s.rk + 1) := by
      rw [List.drop_eq_getElem_cons (by rwa [payload_length])]
      simp [payload, Memory.symbols]
    have hrest := ih (s := { s with trace := s.trace ++ [.sym (Memory.read s.pl s.rk)], rk := s.rk + 1 }) hp
      (show s.rk + 1 + k = s.cfg.payloadLen by omega)
    rw [hsymbol, List.map_cons, List.append_cons]
    exact hrest.cons fun _ => sequencerStep_of_write_push hp rfl (Bool.and_false _) hrk

theorem reaches_idle {s : State} (hp : s.phase = .deselect) :
    Reaches 1 s { s with csN := 1#1, trace := s.trace ++ [.deselect], timer := s.cfg.refreshInterval, phase := .idle } :=
  .single fun _ => sequencerStep_of_deselect hp

/-- From `ACQUIRE` under a free lock, phase by phase, back to `IDLE` (R162). -/
theorem Inv.reaches_idle_of_acquire {s : State} (hs : Inv s) (hp : s.phase = .acquire) (hl : s.lock = .free) :
    ∃ pl wo, Memory.symbols pl s.cfg.payloadLen = compose s.cfg s.fb ∧
      Reaches (cycleSteps s.cfg) s { s with
        lock := .free, pl := pl, phase := .idle, px := s.cfg.ledCount, wo := wo, rk := s.cfg.payloadLen,
        timer := s.cfg.refreshInterval, csN := 1#1, trace := s.trace ++ closedFrame (compose s.cfg s.fb) } := by
  obtain ⟨pl, wo, hpl, hencode⟩ := (hs.acquire hp).reaches_release rfl (Nat.zero_add _)
  refine ⟨pl, wo, hpl, ?_⟩
  have hcycle := (reaches_encode hp hl).trans hencode |>.trans (reaches_select rfl rfl) |>.trans (reaches_write rfl)
    |>.trans (reaches_deselect rfl (Nat.zero_add _)) |>.trans (reaches_idle rfl)
  have hcount : cycleSteps s.cfg = 1 + (s.cfg.ledCount + 1) + 1 + 1 + (s.cfg.payloadLen + 1) + 1 := by
    rw [cycleSteps]
    omega
  have htrace : s.trace ++ closedFrame (compose s.cfg s.fb) =
      s.trace ++ [.select] ++ (Memory.symbols pl s.cfg.payloadLen).map .sym ++ [.deselect] := by
    simp [hpl, closedFrame, openFrame]
  rw [hcount, htrace]
  exact hcycle

/-- Settles O46: the settled choices are the sequencer's steps of one cycle, and `Inv.reaches_idle_of_acquire` says where they lead. -/
theorem wholeCycleTransmitsTheSnapshot : Obligations.WholeCycleTransmitsTheSnapshot := by
  unfold Obligations.WholeCycleTransmitsTheSnapshot
  intro s rest hs hp hl hsched
  obtain ⟨pl, wo, hpl, hcycle⟩ := hs.reaches_idle_of_acquire hp hl
  have hrun := hcycle rest
  rw [← hsched] at hrun
  exact ⟨_, hrun, rfl, hpl, rfl, rfl, rfl, rfl, rfl, rfl, rfl, rfl⟩

/-! ### The exit of every phase (R164) -/

theorem exitBound_pos (s : State) : 0 < exitBound s := by
  unfold exitBound
  split <;> exact Nat.succ_pos _

/-- In `ACQUIRE` nobody owns the lock: not the sequencer, and between steps no producer (R135, R161). -/
theorem Inv.lock_free_of_acquire {s : State} (hs : Inv s) (hp : s.phase = .acquire) : s.lock = .free := by
  cases hl : s.lock with
  | free => rfl
  | tx => simpa [hp, inCriticalSection] using hs.lockTx.1 hl
  | prod p => exact absurd hl (hs.lockNotProd p)

/-- A step of the sequencer that does not leave the phase comes closer to its exit, if the bus is ready. -/
theorem Inv.exitBound_of_sequencerStep {ready fail : Bool} {s t : State} (hs : Inv s) (h : Machine.sequencerStep ready fail s = .next t)
    (hsame : t.phase = s.phase) : exitBound t + (if ready = true then 1 else 0) ≤ exitBound s := by
  have hone : (if ready = true then 1 else 0) ≤ 1 := by cases ready <;> decide
  rcases sequencerStep_cases h with ⟨hp, ht, rfl⟩ | ⟨hp, _, rfl⟩ | ⟨hp, rfl⟩ | ⟨hp, hl, _⟩ | ⟨hp, _, rfl⟩ |
    ⟨hp, hpx, _, _, _, _, _, _, rfl⟩ | ⟨hp, _, rfl⟩ | ⟨hp, _, rfl⟩ | ⟨hp, rfl⟩ | ⟨_, rfl, _, rfl⟩ | ⟨hp, _, _, _, rfl⟩ |
    ⟨hp, _, _, hrk, rfl⟩ | ⟨hp, _, _, _, rfl⟩ | ⟨hp, rfl⟩
  · simp only [exitBound, hp]
    omega
  · cases hsame.trans hp
  · cases hsame.trans hp
  · exact absurd (hs.lock_free_of_acquire hp) hl
  · cases hsame.trans hp
  · simp only [exitBound, hp]
    omega
  · cases hsame.trans hp
  · cases hsame.trans hp
  · cases hsame.trans hp
  · exact Nat.le_refl _
  · cases hsame.trans hp
  · simp only [exitBound, hp]
    omega
  · cases hsame.trans hp
  · cases hsame.trans hp

theorem exitBound_consumeChoice (s : State) : exitBound (consumeChoice s) = exitBound s := by
  simp [exitBound]

/-- No step but a reset takes the sequencer further from its exit, and the sequencer's with the bus ready brings it closer. -/
theorem Inv.exitBound_of_step {s t : State} (hs : Inv s) (h : Machine.step s = .next t) (hno : isReset (nextChoice s) = false)
    (hsame : t.phase = s.phase) : exitBound t + (if isReadySequencer (nextChoice s) = true then 1 else 0) ≤ exitBound s := by
  have hproducer (hseq : ∀ ready fail, nextChoice s ≠ .sequencer ready fail) : exitBound t = exitBound s := by
    obtain ⟨_, _, _, _, rfl⟩ := producer_step_frame h hno hseq
    exact exitBound_consumeChoice s
  cases hc : nextChoice s with
  | rst fb pl => simp [hc, isReset] at hno
  | issue p w => exact (hproducer (by simp [hc])).le
  | execute p => exact (hproducer (by simp [hc])).le
  | sequencer ready fail =>
    have hconsume : Inv (consumeChoice s) := hs.of_sparesSequencer (sparesSequencer_consumeChoice s)
    rw [step_of_nextChoice hc] at h
    rw [← exitBound_consumeChoice s]
    exact hconsume.exitBound_of_sequencerStep h (hsame.trans (consumeChoice_phase s).symm)

/-- No agent's step writes the environment's settled choices. -/
theorem step_sched {s t : State} (h : step s = .next t) (hno : isReset (nextChoice s) = false) : t.sched = (consumeChoice s).sched := by
  rcases step_cases_by_agent h with ⟨hreset, _⟩ | ⟨_, _, _, hseq⟩ | ⟨_, _, _, _, rfl⟩
  · simp [hno] at hreset
  · rcases sequencerStep_cases hseq with ⟨_, _, rfl⟩ | ⟨_, _, rfl⟩ | ⟨_, rfl⟩ | ⟨_, _, rfl⟩ | ⟨_, _, rfl⟩ |
      ⟨_, _, _, _, _, _, _, _, rfl⟩ | ⟨_, _, rfl⟩ | ⟨_, _, rfl⟩ | ⟨_, rfl⟩ | ⟨_, _, _, rfl⟩ | ⟨_, _, _, _, rfl⟩ | ⟨_, _, _, _, rfl⟩ |
      ⟨_, _, _, _, rfl⟩ | ⟨_, rfl⟩ <;> rfl
  · rfl

/-- Settles O48: along the settled choices the distance to the exit falls with each ready step of the sequencer, until the phase changes. -/
theorem everyPhaseTakesItsExit : Obligations.EveryPhaseTakesItsExit := by
  unfold Obligations.EveryPhaseTakesItsExit
  intro s cs rest hs hsched hno hbound
  induction cs generalizing s with
  | nil => exact absurd hbound (Nat.not_le.2 (exitBound_pos s))
  | cons c cs ih =>
    obtain ⟨hc, hrest⟩ := List.forall_mem_cons.1 hno
    have hchoice : nextChoice s = c := by rw [nextChoice, hsched, List.cons_append]
    have hconsume : (consumeChoice s).sched = cs ++ rest := by rw [consumeChoice, hsched, List.cons_append]
    obtain ⟨t, hstep⟩ := hs.step_answers
    rw [← hchoice] at hc
    by_cases hsame : t.phase = s.phase
    · have hcloser := hs.exitBound_of_step hstep hc hsame
      rw [hchoice] at hcloser
      rw [List.countP_cons] at hbound
      obtain ⟨n, u, hn, hrun, hne⟩ := ih t (hs.of_step hstep) ((step_sched hstep hc).trans hconsume) hrest (by omega)
      exact ⟨n + 1, u, Nat.succ_le_succ hn, (core_run_succ hstep).trans hrun, hsame ▸ hne⟩
    · exact ⟨1, t, Nat.succ_le_succ (Nat.zero_le _), core_run_succ (n := 0) hstep, hsame⟩

end Sys2Proof.Safety
end

section
/-! PROOFS. The statements of 60_exceptions.md: which step signals an error event (R180 to R184), and that fair arbitration excludes starvation
(R183, R189). -/

namespace Sys2Proof.Machine

open Sys2Proof.Safety

/-! ### What a step signals (R180) -/

/-- A command signals nothing, or it is a `SETPIXEL` that is rejected (R181). -/
theorem exec_signals_cases {i : Instr} {s t : State} (h : exec i s = .next t) :
    t.signals = s.signals ∨
    ∃ index color, i = .setpixel index color ∧ s.cfg.ledCount ≤ index.toNat ∧
      t.signals = s.signals ++ [.indexOutOfRange index.toNat] := by
  by_cases hout : ∃ index color, i = .setpixel index color ∧ s.cfg.ledCount ≤ index.toNat
  · obtain ⟨index, color, rfl, hge⟩ := hout
    rw [exec_setpixel_of_outside hge] at h
    cases h
    exact .inr ⟨index, color, rfl, hge, rfl⟩
  · exact .inl (exec_signals_of_in_range h fun index color hi => Nat.lt_of_not_le fun hge => hout ⟨index, color, hi, hge⟩)

/-- The sequencer signals nothing, or it is in `WRITE` and the bus, which can fail, does (R182). -/
theorem sequencerStep_signals_cases {ready fail : Bool} {s t : State} (h : sequencerStep ready fail s = .next t) :
    t.signals = s.signals ∨
    (fail = true ∧ s.phase = .write ∧ s.cfg.busCanFail = true ∧ t.signals = s.signals ++ [.busWriteFailure s.rk]) := by
  rcases sequencerStep_cases h with ⟨_, _, rfl⟩ | ⟨_, _, rfl⟩ | ⟨_, rfl⟩ | ⟨_, _, rfl⟩ | ⟨_, _, rfl⟩ | ⟨_, _, _, _, _, _, _, _, rfl⟩ |
    ⟨_, _, rfl⟩ | ⟨_, _, rfl⟩ | ⟨_, rfl⟩ | ⟨_, _, _, rfl⟩ | ⟨hp, _, hcan, hfail, rfl⟩ | ⟨_, _, _, _, rfl⟩ | ⟨_, _, _, _, rfl⟩ | ⟨_, rfl⟩
  -- The eleventh case is the bus failure; no other one touches the record.
  pick_goal 11
  · exact .inr ⟨hfail, hp, hcan, rfl⟩
  all_goals exact .inl rfl

/-- Settles O17: a reset and an issue leave the record, and a command and the sequencer append at most their own event. -/
theorem errorEventsHaveOnlyTheirCauses : Obligations.ErrorEventsHaveOnlyTheirCauses := by
  unfold Obligations.ErrorEventsHaveOnlyTheirCauses
  intro s t h
  rcases step_next_cases h with ⟨_, _, _, rfl⟩ | ⟨_, _, _, ⟨_, rfl⟩ | ⟨_, rfl⟩⟩ | ⟨p, hc, ⟨_, rfl⟩ | ⟨w, hw, hx⟩⟩ | ⟨ready, fail, hc, hseq⟩
  · exact .inl (by simp)
  · exact .inl (by simp)
  · exact .inl (by simp)
  · exact .inl (by simp)
  · have hsignals := exec_signals_cases hx
    simp only [selectPort_cfg, selectPort_signals, consumeChoice_cfg, consumeChoice_signals] at hsignals
    exact hsignals.imp_right fun ⟨index, color, hi, hout, ht⟩ => .inl ⟨p, w, index, color, hc, hw, hi, hout, ht⟩
  · have hsignals := sequencerStep_signals_cases hseq
    simp only [consumeChoice_cfg, consumeChoice_phase, consumeChoice_rk, consumeChoice_signals] at hsignals
    refine hsignals.imp_right ?_
    rintro ⟨rfl, hp, hcan, ht⟩
    exact .inr ⟨ready, hc, hp, hcan, ht⟩

/-! ### An agent that is scheduled with the lock free (R183, R189) -/

/-- Under a free lock no command waits: its port's latch is empty afterwards (R130). -/
theorem latch_of_exec_of_free {i : Instr} {s t : State} (h : exec i s = .next t) (hf : s.lock = .free) : latch s.port t = none := by
  have emptied (hcmd : t.cmd = s.cmd.set s.port none) : latch s.port t = none := by
    simp only [latch, hcmd, List.getElem?_set, if_true]
    split <;> rfl
  rcases exec_cases h with ⟨htaken, _⟩ | ⟨_, rfl⟩ | ⟨_, _, _, _, rfl⟩ | ⟨_, _, rfl⟩ | rfl
  · exact absurd hf htaken
  · exact emptied rfl
  · exact emptied rfl
  · exact emptied rfl
  · exact emptied rfl

/-- The step of an agent that asks for the lock and finds it free ends its asking: the sequencer leaves `ACQUIRE` (R153), a port's command
leaves its latch (R131 to R133). -/
theorem not_wants_of_scheduled_of_free {a : Lock} {c : Choice} {s t : State} (h : choiceStep c s = .next t) (hwants : Wants a s)
    (hf : s.lock = .free) (hc : schedules a c) : ¬Wants a t := by
  cases a with
  | free => exact hwants.elim
  | tx =>
    obtain ⟨ready, fail, rfl⟩ := hc
    have hseq : sequencerStep ready fail s = .next t := h
    rw [sequencerStep_of_acquire_free hwants hf] at hseq
    cases hseq
    exact nofun
  | prod p =>
    obtain rfl : c = .execute p := hc
    obtain ⟨w, hw, _⟩ := hwants
    have hexec : exec (decode w) (selectPort p s) = .next t := (executeStep_of_pending hw).symm.trans h
    have hempty : latch p t = none := latch_of_exec_of_free hexec hf
    rintro ⟨w', hw', _⟩
    rw [hempty] at hw'
    cases hw'

/-- Settles O49: once the agent asks for ever, fairness gives it a step under a free lock, and after that step it does not ask. -/
theorem fairArbitrationExcludesStarvation : Obligations.FairArbitrationExcludesStarvation := by
  unfold Obligations.FairArbitrationExcludesStarvation
  rintro env run a hrun hfair ⟨k, hasks⟩
  obtain ⟨n, hkn, hturn⟩ := hfair k
  obtain ⟨hf, hscheduled⟩ := hturn (hasks n hkn)
  exact not_wants_of_scheduled_of_free (hrun n) (hasks n hkn) hf hscheduled (hasks (n + 1) (Nat.le_succ_of_le hkn))

end Sys2Proof.Machine
end

section
/-! PROOFS. The statements of 70_reset_and_hazards.md about reset: a reset step puts every register to its reset value (R210 to R213), and so
does every launch (R212). -/

namespace Sys2Proof.Machine

open Sys2Proof.Safety

/-! ### What the outputs and the latches are at the values of reset (R212) -/

/-- The sequencer presents a symbol in `WRITE` only (R39). -/
theorem symValid_of_phase_ne_write {s : State} (h : s.phase ≠ .write) : symValid s = false := by
  rw [symValid, beq_false_of_ne h, Bool.false_and]

/-- With every latch empty no port has a pending command, whether the port exists or not. -/
theorem latch_of_cmd_replicate {s : State} {n : Nat} (h : s.cmd = List.replicate n none) (p : Nat) : latch p s = none := by
  rw [latch, h, List.getElem?_replicate]
  split <;> rfl

/-- With every latch empty each port that exists is ready (R39, R130). -/
theorem cmdReady_of_cmd_replicate {s : State} {n : Nat} (h : s.cmd = List.replicate n none) {p : Nat} (hp : p < n) :
    cmdReady p s = true :=
  cmdReady_iff.2 ⟨by rwa [h, List.length_replicate], latch_of_cmd_replicate h p⟩

/-- A draw of exactly `L` symbols is the whole payload after reset (R213). -/
theorem payload_applyReset {s : State} {pl : List Symbol} (h : pl.length = s.cfg.payloadLen) (fb : List Pixel) :
    payload (applyReset fb pl s) = pl := by
  rw [payload, applyReset_pl, applyReset_cfg, List.take_of_length_le (Nat.le_of_eq h)]
  exact symbols_writeAll_whole Memory.wf_nil h

/-- Settles O33: the step is `applyReset` once the choice is taken, a draw of `N` pixels and `L` symbols fits as it is, and taking a choice
moves only the environment's own part. -/
theorem resetPutsEveryRegisterToItsResetValue : Obligations.ResetPutsEveryRegisterToItsResetValue := by
  unfold Obligations.ResetPutsEveryRegisterToItsResetValue
  intro s fb pl hc hfb hpl
  rw [← consumeChoice_cfg s] at hfb hpl
  have hcmd : (applyReset fb pl (consumeChoice s)).cmd = List.replicate s.cfg.numProducers none := by
    rw [applyReset_cmd, consumeChoice_cfg]
  exact ⟨applyReset fb pl (consumeChoice s), step_of_nextChoice hc, fitPixels_of_length hfb, payload_applyReset hpl fb,
    rfl, rfl, rfl, rfl, rfl, rfl, rfl, hcmd, rfl, symValid_of_phase_ne_write nofun, consumeChoice_cfg s, consumeChoice_signals s,
    consumeChoice_port s, rfl, rfl⟩

/-- Settles O34: a launch is in `IDLE` with every latch empty, so no port has a pending command, each is ready, and no symbol is presented. -/
theorem stateAfterResetHoldsTheResetValues : Obligations.StateAfterResetHoldsTheResetValues := by
  unfold Obligations.StateAfterResetHoldsTheResetValues
  intro cfg fbInit plInit s
  have hcmd : s.cmd = List.replicate cfg.numProducers none := rfl
  exact ⟨rfl, rfl, rfl, rfl, latch_of_cmd_replicate hcmd, fun _ => cmdReady_of_cmd_replicate hcmd, symValid_of_phase_ne_write nofun, rfl⟩

end Sys2Proof.Machine
end

section
/-! PROOFS. The statement of 41_framebuffer_producer.md sections 1 and 2 about an enabled command: it completes, and its port is ready again
(R130, R131 to R134). -/

namespace Sys2Proof.Machine

open Sys2Proof.Safety

/-- A command that needs no lock is a rejected `SETPIXEL` or a reserved one; it empties its latch whatever the lock is (R131, R134). -/
theorem exec_of_not_needsLock {i : Instr} {s : State} (h : needsLock s.cfg i = false) :
    ∃ signals, exec i s = .next { s with signals := signals, cmd := s.cmd.set s.port none } := by
  cases i with
  | setpixel index color => exact ⟨_, exec_setpixel_of_outside (Nat.le_of_not_lt (of_decide_eq_false h)) color⟩
  | setall _ => cases h
  | clear => cases h
  | reserved00 => exact ⟨_, exec_of_isReserved rfl s⟩
  | reserved04 _ => exact ⟨_, exec_of_isReserved rfl s⟩
  | reserved08 _ => exact ⟨_, exec_of_isReserved rfl s⟩
  | reserved10 _ => exact ⟨_, exec_of_isReserved rfl s⟩
  | reserved20 _ => exact ⟨_, exec_of_isReserved rfl s⟩
  | reserved40 _ => exact ⟨_, exec_of_isReserved rfl s⟩
  | reserved80 _ => exact ⟨_, exec_of_isReserved rfl s⟩

/-- A command that finds its enabling condition does not wait: it empties the latch of its port and no other (R130). -/
theorem exec_cmd_of_enabled {i : Instr} {s t : State} (h : exec i s = .next t) (hen : s.lock = .free ∨ needsLock s.cfg i = false) :
    t.cmd = s.cmd.set s.port none := by
  rcases hen with hfree | hnoLock
  · rcases exec_cases h with ⟨htaken, _⟩ | ⟨_, rfl⟩ | ⟨_, _, _, _, rfl⟩ | ⟨_, _, rfl⟩ | rfl
    · exact absurd hfree htaken
    · rfl
    · rfl
    · rfl
    · rfl
  · obtain ⟨signals, hexec⟩ := exec_of_not_needsLock hnoLock
    cases hexec.symm.trans h
    rfl

/-- A port with a pending command exists (R37). -/
theorem lt_cmd_length_of_latch {p : Nat} {s : State} {w : CmdWord} (h : latch p s = some w) : p < s.cmd.length :=
  (List.getElem?_eq_some_iff.1 (latch_eq_some_iff.1 h)).1

/-- Once its latch is emptied, a port that exists is ready (R39, R130). -/
theorem cmdReady_of_cmd_set {p : Nat} {s t : State} (hp : p < s.cmd.length) (h : t.cmd = s.cmd.set p none) : cmdReady p t = true := by
  rw [cmdReady, h, List.getElem?_set_self hp, beq_self_eq_true]

/-- Settles O22: the invariant gives the step an answer, that answer is the command's execution, and an enabled command empties its latch. -/
theorem enabledCommandCompletes : Obligations.EnabledCommandCompletes := by
  unfold Obligations.EnabledCommandCompletes
  intro s p w hs hc hw hen
  obtain ⟨t, ht⟩ := hs.step_answers
  have hstep : step s = exec (decode w) (selectPort p (consumeChoice s)) := (stepExecutesTheDecodedCommand s p hc).1 w _ hw rfl
  have hcmd : t.cmd = s.cmd.set p none := by
    simpa using exec_cmd_of_enabled (hstep.symm.trans ht) (by simpa using hen)
  have hready : cmdReady p t = true := cmdReady_of_cmd_set (lt_cmd_length_of_latch hw) hcmd
  exact ⟨t, ht, (cmdReady_iff.1 hready).2, hready⟩

end Sys2Proof.Machine
end
